-- ==== Sys2Proof/Word.lean ====
section
/-! DEFINITION. The machine's word types (spec/00_scope.md section 6, spec/10_state.md). All quantities are unsigned. -/

namespace Sys2Proof

/-- An 8-bit value: a general register, a byte of memory, an immediate NN. -/
abbrev Byte := BitVec 8

/-- A 16-bit value: PC, I, a return address, an instruction word. -/
abbrev Word := BitVec 16

/-- A 4-bit field of an instruction word (R51). -/
abbrev Nibble := BitVec 4

/-- The 12-bit field NNN of an instruction word (R51). -/
abbrev Addr := BitVec 12

end Sys2Proof
end

