-- ==== Sys2Proof/Syntax.lean ====
section
/-! DEFINITION. The instructions of spec/30_encoding.md R54: one constructor per row of spec/opcode_table.json, in the
table's order. -/

namespace Sys2Proof

/-- A register index 0..15, from the field X or Y of the word: every instruction that takes a register can take any of
the sixteen, VF included (R10). -/
abbrev Reg := Fin 16

/-- The 23 instructions (R54). Every operand is unsigned and used as it stands (R53). -/
inductive Instr where
  /-- `0000` NOP (R80). -/
  | nop
  /-- `00E0` CLS (R120). -/
  | cls
  /-- `00EE` RET (R81). -/
  | ret
  /-- `1NNN` JP NNN (R82). -/
  | jp (nnn : Addr)
  /-- `2NNN` CALL NNN (R83). -/
  | call (nnn : Addr)
  /-- `3XNN` SE Vx, NN (R85). -/
  | seImm (x : Reg) (nn : Byte)
  /-- `4XNN` SNE Vx, NN (R86). -/
  | sneImm (x : Reg) (nn : Byte)
  /-- `5XY0` SE Vx, Vy (R87). -/
  | seReg (x y : Reg)
  /-- `6XNN` LD Vx, NN (R90). -/
  | ldImm (x : Reg) (nn : Byte)
  /-- `7XNN` ADD Vx, NN (R91). -/
  | addImm (x : Reg) (nn : Byte)
  /-- `8XY0` LD Vx, Vy (R100). -/
  | ldReg (x y : Reg)
  /-- `8XY1` OR Vx, Vy (R101). -/
  | orReg (x y : Reg)
  /-- `8XY2` AND Vx, Vy (R102). -/
  | andReg (x y : Reg)
  /-- `8XY3` XOR Vx, Vy (R103). -/
  | xorReg (x y : Reg)
  /-- `8XY4` ADD Vx, Vy (R104). -/
  | addReg (x y : Reg)
  /-- `8XY5` SUB Vx, Vy (R105). -/
  | sub (x y : Reg)
  /-- `8XY6` SHR Vx; the field Y is kept and has no effect (R59, R106). -/
  | shr (x y : Reg)
  /-- `8XY7` SUBN Vx, Vy (R107). -/
  | subn (x y : Reg)
  /-- `8XYE` SHL Vx; the field Y is kept and has no effect (R59, R108). -/
  | shl (x y : Reg)
  /-- `9XY0` SNE Vx, Vy (R88). -/
  | sneReg (x y : Reg)
  /-- `ANNN` LD I, NNN (R92). -/
  | ldI (nnn : Addr)
  /-- `CXNN` RND Vx, NN (R115). -/
  | rnd (x : Reg) (nn : Byte)
  /-- `DXYN` DRW Vx, Vy, N (R121); N is a row count 0..15. -/
  | drw (x y n : Fin 16)
  deriving DecidableEq, Repr

end Sys2Proof
end

