-- ==== Sys2Proof/Decode.lean ====
section
/-! DEFINITION. The encoding of spec/30_encoding.md: the fields of a word (R51), the decoder (R54, R55), the encoder,
and the opcode map as mask and match rows (R54). -/

namespace Sys2Proof

/-- `hi ++ lo`: the word fetched big-endian from two bytes, high byte at the lower address (R33, R50). -/
def joinBytes (hi lo : Byte) : Word := hi ++ lo

/-- Bits 15..8 of a word, the byte at the lower address. -/
def highByte (w : Word) : Byte := w.extractLsb' 8 8

/-- Bits 7..0 of a word, the byte at the higher address. -/
def lowByte (w : Word) : Byte := w.extractLsb' 0 8

/-- `op[15:12]`, the major opcode (R51). -/
def nibble1 (w : Word) : Nibble := w.extractLsb' 12 4

/-- `op[11:8]`, X (R51). -/
def nibble2 (w : Word) : Nibble := w.extractLsb' 8 4

/-- `op[7:4]`, Y (R51). -/
def nibble3 (w : Word) : Nibble := w.extractLsb' 4 4

/-- `op[3:0]`, the minor opcode or N (R51). -/
def nibble4 (w : Word) : Nibble := w.extractLsb' 0 4

/-- The word whose four fields are given, most significant first (R51). -/
def ofNibbles (n1 n2 n3 n4 : Nibble) : Word := n1 ++ n2 ++ n3 ++ n4

/-- A 4-bit field read as an index 0..15. -/
def nibbleIndex (n : Nibble) : Fin 16 := n.toFin

/-- An index 0..15 as a 4-bit field. -/
def indexNibble (x : Fin 16) : Nibble := BitVec.ofFin x

/-- NN = `op[7:0]` from nibble3 and nibble4 (R51). -/
def immOf (n3 n4 : Nibble) : Byte := n3 ++ n4

/-- NNN = `op[11:0]` from nibble2, nibble3 and nibble4 (R51). -/
def addrOf (n2 n3 n4 : Nibble) : Addr := n2 ++ n3 ++ n4

/-- Why bytes are no instruction: each reason has its name. -/
inductive Reject where
  /-- Fewer than two bytes: no whole word (R50). -/
  | truncated
  /-- The word matches no row of the opcode map (R56). It is no error of the machine: `step` gives it the effect of
  R75. -/
  | unrecognized (w : Word)
  deriving DecidableEq, Repr

/-- The words with nibble1 = 0: three full words, the rest unrecognized (R54 rows 1 to 3, R56). -/
def selectFixed (n2 n3 n4 : Nibble) : Option Instr :=
  match n2, n3, n4 with
  | 0x0#4, 0x0#4, 0x0#4 => some .nop
  | 0x0#4, 0xE#4, 0x0#4 => some .cls
  | 0x0#4, 0xE#4, 0xE#4 => some .ret
  | _, _, _ => none

/-- The words with nibble1 = 8, by the minor opcode (R54 rows 11 to 19). -/
def selectAlu (x y : Reg) (n4 : Nibble) : Option Instr :=
  match n4 with
  | 0x0#4 => some (.ldReg x y)
  | 0x1#4 => some (.orReg x y)
  | 0x2#4 => some (.andReg x y)
  | 0x3#4 => some (.xorReg x y)
  | 0x4#4 => some (.addReg x y)
  | 0x5#4 => some (.sub x y)
  | 0x6#4 => some (.shr x y)
  | 0x7#4 => some (.subn x y)
  | 0xE#4 => some (.shl x y)
  | _ => none

/-- 5XY0 and 9XY0 require nibble4 = 0 exactly (R54 rows 8 and 20, R56). -/
def selectIfZero (n4 : Nibble) (i : Instr) : Option Instr :=
  if n4 = 0x0#4 then some i else none

/-- "Dispatch is by the tuple (nibble1, nibble2, nibble3, nibble4)" (R54). -/
def selectRow (n1 n2 n3 n4 : Nibble) : Option Instr :=
  match n1 with
  | 0x0#4 => selectFixed n2 n3 n4
  | 0x1#4 => some (.jp (addrOf n2 n3 n4))
  | 0x2#4 => some (.call (addrOf n2 n3 n4))
  | 0x3#4 => some (.seImm (nibbleIndex n2) (immOf n3 n4))
  | 0x4#4 => some (.sneImm (nibbleIndex n2) (immOf n3 n4))
  | 0x5#4 => selectIfZero n4 (.seReg (nibbleIndex n2) (nibbleIndex n3))
  | 0x6#4 => some (.ldImm (nibbleIndex n2) (immOf n3 n4))
  | 0x7#4 => some (.addImm (nibbleIndex n2) (immOf n3 n4))
  | 0x8#4 => selectAlu (nibbleIndex n2) (nibbleIndex n3) n4
  | 0x9#4 => selectIfZero n4 (.sneReg (nibbleIndex n2) (nibbleIndex n3))
  | 0xA#4 => some (.ldI (addrOf n2 n3 n4))
  | 0xC#4 => some (.rnd (nibbleIndex n2) (immOf n3 n4))
  | 0xD#4 => some (.drw (nibbleIndex n2) (nibbleIndex n3) (nibbleIndex n4))
  | _ => none

/-- Decode one word: total, a function of the word alone (R55, R73). -/
def decodeWord (w : Word) : Except Reject Instr :=
  match selectRow (nibble1 w) (nibble2 w) (nibble3 w) (nibble4 w) with
  | some i => .ok i
  | none => .error (.unrecognized w)

/-- Decode the first instruction of a byte sequence, with the bytes after it. -/
def decode : List Byte → Except Reject (Instr × List Byte)
  | hi :: lo :: rest =>
    match decodeWord (joinBytes hi lo) with
    | .ok i => .ok (i, rest)
    | .error e => .error e
  | _ => .error .truncated

/-- The two bytes of an instruction word, the first at the lower address (R33). -/
def wordBytes (w : Word) : List Byte := [highByte w, lowByte w]

/-- The host's table words (`decodeTableWord`) have 16 bits, bit 0 the least significant of the one word. -/
def tableWord (nbits w : Nat) : Word := BitVec.ofNat 16 (w % 2 ^ nbits)

/-- What the decoder reads from a word numbered as spec/opcode_table.json numbers it. -/
def decodeTableWord (nbits w : Nat) : Option Instr :=
  match decode (wordBytes (tableWord nbits w)) with
  | .ok (i, _) => some i
  | .error _ => none

/-- A word of format REGIMM (R52). -/
def encodeRegImm (op : Nibble) (x : Reg) (nn : Byte) : Word :=
  ofNibbles op (indexNibble x) (nn.extractLsb' 4 4) (nn.extractLsb' 0 4)

/-- A word of format REGREG or DRAW (R52). -/
def encodeRegReg (op : Nibble) (x y : Reg) (n4 : Nibble) : Word :=
  ofNibbles op (indexNibble x) (indexNibble y) n4

/-- A word of format ADDR (R52). -/
def encodeAddr (op : Nibble) (nnn : Addr) : Word :=
  ofNibbles op (nnn.extractLsb' 8 4) (nnn.extractLsb' 4 4) (nnn.extractLsb' 0 4)

/-- The word of an instruction, from the patterns of R54 and the layouts of R52. -/
def encode : Instr → Word
  | .nop => ofNibbles 0x0 0x0 0x0 0x0
  | .cls => ofNibbles 0x0 0x0 0xE 0x0
  | .ret => ofNibbles 0x0 0x0 0xE 0xE
  | .jp nnn => encodeAddr 0x1 nnn
  | .call nnn => encodeAddr 0x2 nnn
  | .seImm x nn => encodeRegImm 0x3 x nn
  | .sneImm x nn => encodeRegImm 0x4 x nn
  | .seReg x y => encodeRegReg 0x5 x y 0x0
  | .ldImm x nn => encodeRegImm 0x6 x nn
  | .addImm x nn => encodeRegImm 0x7 x nn
  | .ldReg x y => encodeRegReg 0x8 x y 0x0
  | .orReg x y => encodeRegReg 0x8 x y 0x1
  | .andReg x y => encodeRegReg 0x8 x y 0x2
  | .xorReg x y => encodeRegReg 0x8 x y 0x3
  | .addReg x y => encodeRegReg 0x8 x y 0x4
  | .sub x y => encodeRegReg 0x8 x y 0x5
  | .shr x y => encodeRegReg 0x8 x y 0x6
  | .subn x y => encodeRegReg 0x8 x y 0x7
  | .shl x y => encodeRegReg 0x8 x y 0xE
  | .sneReg x y => encodeRegReg 0x9 x y 0x0
  | .ldI nnn => encodeAddr 0xA nnn
  | .rnd x nn => encodeRegImm 0xC x nn
  | .drw x y n => encodeRegReg 0xD x y (indexNibble n)

/-- One row of the opcode map (R54): a word selects it if and only if `op and mask == pattern`. -/
structure Row where
  mnemonic : String
  mask : Word
  pattern : Word
  deriving DecidableEq, Repr

/-- The row of the opcode map an instruction belongs to, written from R54's table, not from the encoder. -/
def Instr.row : Instr → Row
  | .nop => ⟨"NOP", 0xFFFF, 0x0000⟩
  | .cls => ⟨"CLS", 0xFFFF, 0x00E0⟩
  | .ret => ⟨"RET", 0xFFFF, 0x00EE⟩
  | .jp _ => ⟨"JP", 0xF000, 0x1000⟩
  | .call _ => ⟨"CALL", 0xF000, 0x2000⟩
  | .seImm _ _ => ⟨"SE_imm", 0xF000, 0x3000⟩
  | .sneImm _ _ => ⟨"SNE_imm", 0xF000, 0x4000⟩
  | .seReg _ _ => ⟨"SE_reg", 0xF00F, 0x5000⟩
  | .ldImm _ _ => ⟨"LD_imm", 0xF000, 0x6000⟩
  | .addImm _ _ => ⟨"ADD_imm", 0xF000, 0x7000⟩
  | .ldReg _ _ => ⟨"LD_reg", 0xF00F, 0x8000⟩
  | .orReg _ _ => ⟨"OR", 0xF00F, 0x8001⟩
  | .andReg _ _ => ⟨"AND", 0xF00F, 0x8002⟩
  | .xorReg _ _ => ⟨"XOR", 0xF00F, 0x8003⟩
  | .addReg _ _ => ⟨"ADD_reg", 0xF00F, 0x8004⟩
  | .sub _ _ => ⟨"SUB", 0xF00F, 0x8005⟩
  | .shr _ _ => ⟨"SHR", 0xF00F, 0x8006⟩
  | .subn _ _ => ⟨"SUBN", 0xF00F, 0x8007⟩
  | .shl _ _ => ⟨"SHL", 0xF00F, 0x800E⟩
  | .sneReg _ _ => ⟨"SNE_reg", 0xF00F, 0x9000⟩
  | .ldI _ => ⟨"LD_I", 0xF000, 0xA000⟩
  | .rnd _ _ => ⟨"RND", 0xF000, 0xC000⟩
  | .drw _ _ _ => ⟨"DRW", 0xF000, 0xD000⟩

/-- One instruction of each row, in the table's order. -/
def rowSamples : List Instr :=
  [.nop, .cls, .ret, .jp 0, .call 0, .seImm 0 0, .sneImm 0 0, .seReg 0 0, .ldImm 0 0, .addImm 0 0, .ldReg 0 0,
   .orReg 0 0, .andReg 0 0, .xorReg 0 0, .addReg 0 0, .sub 0 0, .shr 0 0, .subn 0 0, .shl 0 0, .sneReg 0 0,
   .ldI 0, .rnd 0 0, .drw 0 0 0]

/-- The 23 rows of R54, in the source's order. -/
def opcodeRows : List Row := rowSamples.map Instr.row

end Sys2Proof
end

