-- ==== Sys2Proof/Config.lean ====
section
/-! DEFINITION. The implementation parameters of spec/00_scope.md R4, and the one free value, the random input of
spec/45_random.md R116. -/

namespace Sys2Proof.Config

/-- MEM_SIZE (R4, R19): addresses 0x000..0xFFF. -/
def memSize : Nat := 4096

/-- FONT_LEN (R4): the font stands at 0x000..0x04F. -/
def fontLen : Nat := 80

/-- PROG_BASE (R4): the program entry, and where `load_program` writes. -/
def progBase : Nat := 0x200

/-- MAX_PROG_LEN (R4): 4096 - 0x200 = 3584 bytes. -/
def maxProgLen : Nat := memSize - progBase

/-- STACK_DEPTH (R4, R14). -/
def stackDepth : Nat := 16

/-- FB_W (R4, R20). -/
def fbWidth : Nat := 64

/-- FB_H (R4, R20). -/
def fbHeight : Nat := 32

/-- The number of framebuffer cells, 2048 (R4, R20). -/
def fbCells : Nat := fbWidth * fbHeight

/-- The random input `rnd_in` (R116): the byte the outside world delivers at the n-th draw. It has no body: no law is
placed on the samples, so a claim about CXNN holds for every sequence of bytes (D8, U8; log entry 2, DESIGN CHOICE of
the form, safe). -/
opaque rndIn : Nat → Byte

end Sys2Proof.Config
end

