-- ==== Sys2Proof/Machine/State.lean ====
section
/-! DEFINITION. The machine's state (spec/10_state.md), the reasons it can stop, and its state after reset (R23). -/

namespace Sys2Proof.Machine

/-- HALT_CAUSE (R18, R131). Its three-bit codes are `HaltCause.code` in Machine/Ops.lean. -/
inductive HaltCause where
  /-- Code 0, NONE: the value while HALT = 0. -/
  | noCause
  /-- Code 1, ROM_TOO_LARGE: raised by `load_program`. -/
  | romTooLarge
  /-- Code 2, STACK_UNDERFLOW: raised by 00EE. -/
  | stackUnderflow
  /-- Code 3, STACK_OVERFLOW: raised by 2NNN. -/
  | stackOverflow
  /-- Code 4, MEM_OOB: raised by the fetch and by DXYN. -/
  | memOob
  deriving DecidableEq, Repr

/-- What `raise Fatal(cause, info)` records (R132). -/
structure Fatal where
  cause : HaltCause
  info : Word
  deriving DecidableEq, Repr

/-- The contents of memory (R19), as the bytes that differ from the reset contents: addresses strictly rising, no entry
equal to what an unlisted address reads as (`Memory.wf`; log entry 6, DESIGN CHOICE, safe). -/
abbrev Memory := List Host.Cell

/-- The framebuffer (R20), as the indices `y*64+x` of the cells that are on, strictly rising and below 2048
(`Screen.wf`; log entry 5, DESIGN CHOICE, safe). -/
abbrev Screen := List Nat

/-- The whole state of the unit (spec/10_state.md), and one field of the model's own, `draws`. -/
structure State where
  /-- V0..VF (R10, R11). -/
  v : Vector Byte 16
  /-- The index register I (R13). -/
  i : Word
  /-- PC, a byte address (R16). -/
  pc : Word
  /-- SP, the number of stack entries in use, 0..16 (R15; log entry 4, DESIGN CHOICE of the type, safe). -/
  sp : Fin 17
  /-- The call stack, a space of its own (R14). -/
  stack : Vector Word 16
  /-- The 4096 bytes of memory (R19). -/
  mem : Memory
  /-- The 64 x 32 framebuffer, a space of its own (R20). -/
  fb : Screen
  /-- The keypad state, true for pressed (R21). -/
  key : Vector Bool 16
  /-- DT, `delay_timer` (R17). -/
  dt : Byte
  /-- ST, `sound_timer` (R17). -/
  st : Byte
  /-- HALT (R18). -/
  halt : Bool
  /-- HALT_CAUSE (R18). -/
  haltCause : HaltCause
  /-- HALT_INFO (R18). -/
  haltInfo : Word
  /-- The model's own: the number of bytes drawn so far, to which the free value `Config.rndIn` is applied (R116;
  log entry 2, DESIGN CHOICE, safe). -/
  draws : Nat
  deriving DecidableEq, Repr

/-- No step of this machine stops. Every error the spec describes has its entry described too, setting the halt latch
(R132), and is taken as a next state (log entry 3, DESIGN CHOICE, safe); so there is no fault, and this type has no
constructor. -/
inductive Fault where
  deriving DecidableEq, Repr

/-- Why an instruction has no meaning. -/
inductive Refusal where
  /-- An instruction without a meaning would be refused so by its arm of `exec` (safe). No arm of this model does. -/
  | notModelled (mnemonic : String)
  deriving DecidableEq, Repr

/-- The machine right after reset (R23, R150): memory at its reset contents (font and zeros), PC = 0x200, everything
else zero, the halt latch clear. `draws` is the model's own field (log entry 2, DESIGN CHOICE). -/
def State.reset : State where
  v := Vector.replicate 16 0
  i := 0
  pc := 0x200
  sp := 0
  stack := Vector.replicate 16 0
  mem := []
  fb := []
  key := Vector.replicate 16 false
  dt := 0
  st := 0
  halt := false
  haltCause := .noCause
  haltInfo := 0
  draws := 0

end Sys2Proof.Machine
end

