-- ==== Sys2Proof/Machine/Operands.lean ====
section
/-! DEFINITION. The operand forms of spec/30_encoding.md R53: a register V[X] or V[Y], and an address NNN. NN and N are
used as they stand. -/

namespace Sys2Proof.Machine

/-- VF, register 15 (R10, R11). -/
def vf : Reg := 0xF

/-- `V[x]` (R10): none is hard-wired. -/
def readV (s : State) (x : Reg) : Byte := s.v[x]

/-- `V[x] <- b` (R10): none is read-only. -/
def writeV (s : State) (x : Reg) (b : Byte) : State := { s with v := s.v.set x b }

/-- `I <- w`. -/
def setI (w : Word) (s : State) : State := { s with i := w }

/-- `zext_16(NNN)`: a 12-bit absolute address (R53). -/
def zextAddr (nnn : Addr) : Word := nnn.setWidth 16

end Sys2Proof.Machine
end

