-- ==== Sys2Proof/Machine/Flags.lean ====
section
/-! DEFINITION. The flag computations of spec/10_state.md R12 and spec/44_alu.md R109: VF is the only flag, and each of
its writers writes 0 or 1. -/

namespace Sys2Proof.Machine

/-- A flag as the value VF takes: 1 or 0 (R12). -/
def flagByte (b : Bool) : Byte := if b then 1 else 0

/-- `V[0xF] <- flag` (R12). -/
def writeFlag (s : State) (b : Bool) : State := writeV s vf (flagByte b)

/-- The exact sum 0..510 of two bytes (R104). -/
def exactSum (a b : Byte) : Nat := a.toNat + b.toNat

/-- The carry of an addition: the exact sum exceeds 255 (R104, R109). -/
def carryOut (a b : Byte) : Bool := decide (exactSum a b > 255)

/-- The flag of SUB and SUBN: strictly greater, so equal operands give 0 (R105, R107, R109). -/
def strictlyGreater (a b : Byte) : Bool := decide (a.toNat > b.toNat)

/-- Bit 0, the bit SHR shifts out (R106). -/
def lsb (a : Byte) : Bool := a.getLsbD 0

/-- Bit 7, the bit SHL shifts out (R108). -/
def msb (a : Byte) : Bool := a.getLsbD 7

end Sys2Proof.Machine
end

