-- ==== Sys2Proof/Machine/Memory.lean ====
section
/-! DEFINITION. The 4096-byte memory (spec/20_memory.md): its reset contents, reading and writing one byte, and the
canonical form of its data. -/

namespace Sys2Proof.Machine

/-- The font table FONT[0..79] (R37), 16 glyphs of 5 bytes. Bytes 0..4, the glyph 0, are the source's; bytes 5..79 are
the spec's default, from general knowledge (log entry 1, PRESUMED, unsafe: D10). -/
def font : List Byte :=
  [0xF0, 0x90, 0x90, 0x90, 0xF0] ++
  [0x20, 0x60, 0x20, 0x20, 0x70] ++ [0xF0, 0x10, 0xF0, 0x80, 0xF0] ++ [0xF0, 0x10, 0xF0, 0x10, 0xF0] ++
  [0x90, 0x90, 0xF0, 0x10, 0x10] ++ [0xF0, 0x80, 0xF0, 0x10, 0xF0] ++ [0xF0, 0x80, 0xF0, 0x90, 0xF0] ++
  [0xF0, 0x10, 0x20, 0x40, 0x40] ++ [0xF0, 0x90, 0xF0, 0x90, 0xF0] ++ [0xF0, 0x90, 0xF0, 0x10, 0xF0] ++
  [0xF0, 0x90, 0xF0, 0x90, 0x90] ++ [0xE0, 0x90, 0xE0, 0x90, 0xE0] ++ [0xF0, 0x80, 0x80, 0x80, 0xF0] ++
  [0xE0, 0x90, 0x90, 0x90, 0xE0] ++ [0xF0, 0x80, 0xF0, 0x80, 0xF0] ++ [0xF0, 0x80, 0xF0, 0x80, 0x80]

/-- What an unlisted address reads as: the reset contents, the font at 0x000..0x04F and zero elsewhere (R23, R36). -/
def unlisted (a : Nat) : Byte := font.getD a 0

/-- The byte at an address. The bounds check is `memRead`'s (R31), not made here. -/
def Memory.read : Memory → Nat → Byte
  | [], a => unlisted a
  | (b, v) :: rest, a => if b = a then v else Memory.read rest a

/-- Put an entry at its place among rising addresses. -/
def Memory.insertCell (a : Nat) (v : Byte) : Memory → Memory
  | [] => [(a, v)]
  | (b, w) :: rest => if a < b then (a, v) :: (b, w) :: rest else (b, w) :: Memory.insertCell a v rest

/-- Write one byte, keeping the canonical form: an entry is listed only if it differs from the reset contents. -/
def Memory.write (m : Memory) (a : Nat) (v : Byte) : Memory :=
  let others := m.filter (fun c => c.1 != a)
  if v = unlisted a then others else Memory.insertCell a v others

/-- Write consecutive bytes from an address up (R151). -/
def Memory.writeBytes (m : Memory) (a : Nat) : List Byte → Memory
  | [] => m
  | b :: rest => Memory.writeBytes (Memory.write m a b) (a + 1) rest

/-- The canonical form: addresses below 4096 and strictly rising, no entry equal to the reset contents. -/
def Memory.wf : Memory → Bool
  | [] => true
  | (a, v) :: rest =>
    decide (a < Config.memSize) && decide (v ≠ unlisted a) && rest.all (fun c => decide (a < c.1)) && Memory.wf rest

end Sys2Proof.Machine
end

