-- ==== Sys2Proof/Machine/Screen.lean ====
section
/-! DEFINITION. The framebuffer (spec/10_state.md R20, spec/20_memory.md R44): its cells, toggling one, clearing all,
and the canonical form of its data. -/

namespace Sys2Proof.Machine

/-- The index `y*64 + x` of cell (x, y) (R20). -/
def cellIndex (x y : Nat) : Nat := y * Config.fbWidth + x

/-- Whether cell `k` is on: `fb[k]`. -/
def Screen.cell (fb : Screen) (k : Nat) : Bool := fb.elem k

/-- Put an index at its place among rising indices. -/
def Screen.insertCell (k : Nat) : Screen → Screen
  | [] => [k]
  | j :: rest => if k < j then k :: j :: rest else j :: Screen.insertCell k rest

/-- `fb[k] <- fb[k] xor 1` (R121). -/
def Screen.toggle (fb : Screen) (k : Nat) : Screen :=
  if Screen.cell fb k then fb.filter (fun j => j != k) else Screen.insertCell k fb

/-- The canonical form: indices below 2048 and strictly rising. -/
def Screen.wf : Screen → Bool
  | [] => true
  | k :: rest => decide (k < Config.fbCells) && rest.all (fun j => decide (k < j)) && Screen.wf rest

end Sys2Proof.Machine
end

