-- ==== Sys2Proof/Machine/Ops.lean ====
section
/-! DEFINITION. The shared operations: taking a fatal error, the bounds-checked memory read, the fetch, and what the
instructions do to PC, the call stack and the framebuffer. -/

namespace Sys2Proof.Machine

/-- The code of a HALT_CAUSE (R131). -/
def HaltCause.code : HaltCause → BitVec 3
  | .noCause => 0
  | .romTooLarge => 1
  | .stackUnderflow => 2
  | .stackOverflow => 3
  | .memOob => 4

/-- `raise Fatal(cause, info)` (R132): HALT, HALT_CAUSE and HALT_INFO are written and nothing else; no state is saved,
PC is not redirected. There is no return from it: only `reset` clears the latch (R134, R150). -/
def raiseFatal (f : Fatal) (s : State) : State :=
  { s with halt := true, haltCause := f.cause, haltInfo := f.info }

/-- `MemRead(addr, 1)` (R31, R32): the address is an unbounded integer, checked before the byte is read; it is never
wrapped. -/
def memRead (addr : Nat) (s : State) : Except Fatal Byte :=
  if addr > 4095 then .error ⟨.memOob, BitVec.ofNat 16 addr⟩ else .ok (Memory.read s.mem addr)

/-- `MemRead(addr, 2)` (R33): two byte reads, the lower address first, big-endian. -/
def memReadWord (addr : Nat) (s : State) : Except Fatal Word :=
  match memRead addr s with
  | .error f => .error f
  | .ok hi =>
    match memRead (addr + 1) s with
    | .error f => .error f
    | .ok lo => .ok (joinBytes hi lo)

/-- PC advanced past one word, modulo 65536 (R72, D12; log entry 11). -/
def advancePc (s : State) : State := { s with pc := s.pc + 2 }

/-- `fetch()` (R72): the word at [PC, PC+1], and the state with PC advanced by 2. A fetch that faults leaves PC
unchanged. -/
def fetch (s : State) : Except Fatal (Word × State) :=
  match memReadWord s.pc.toNat s with
  | .error f => .error f
  | .ok op => .ok (op, advancePc s)

/-- A skip passes over one word if its condition holds (spec/42_skip.md). -/
def skipIf (c : Bool) (s : State) : State := if c then advancePc s else s

/-- `pc <- target`. -/
def jumpTo (target : Word) (s : State) : State := { s with pc := target }

/-- `stack[SP] <- PC; SP <- SP + 1`, after the check of R83: SP = 16 is Fatal STACK_OVERFLOW. -/
def pushPc (s : State) : Except Fatal State :=
  if h : s.sp.val < Config.stackDepth then
    .ok { s with stack := s.stack.set s.sp.val s.pc h, sp := ⟨s.sp.val + 1, Nat.succ_lt_succ h⟩ }
  else .error ⟨.stackOverflow, 16⟩

/-- `SP <- SP - 1; pc <- stack[SP]`, after the check of R81: SP = 0 is Fatal STACK_UNDERFLOW. The popped slot keeps its
value (D26; log entry 14). -/
def popPc (s : State) : Except Fatal State :=
  match s.sp with
  | ⟨0, _⟩ => .error ⟨.stackUnderflow, 0⟩
  | ⟨n + 1, h⟩ => .ok { s with sp := ⟨n, Nat.lt_of_succ_lt h⟩, pc := s.stack[n]'(Nat.lt_of_succ_lt_succ h) }

/-- The state after an operation that may raise a fatal error: the error is taken in the state the operation was
started in, which is the state its checks leave (R133). -/
def orFatal (s : State) (r : Except Fatal State) : State :=
  match r with
  | .ok t => t
  | .error f => raiseFatal f s

/-- All 2048 cells off (R120). -/
def clearScreen (s : State) : State := { s with fb := [] }

/-- `fb[k] <- fb[k] xor 1` (R121). -/
def toggleCell (k : Nat) (s : State) : State := { s with fb := Screen.toggle s.fb k }

/-- A set sprite bit that falls on cell `k` of the screen (R124): if the cell was on, VF becomes 1; the cell is
toggled. -/
def hitCell (k : Nat) (s : State) : State :=
  toggleCell k (if Screen.cell s.fb k then writeFlag s true else s)

/-- One column `c` of sprite row `r` (R121, R122): a set bit, bit 7 leftmost, falls on (V[X]+c, V[Y]+r), read here and
not truncated (D11; log entry 15); off the screen it is clipped (R123). -/
def drawPixel (x y : Reg) (r : Nat) (sprite : Byte) (s : State) (c : Nat) : State :=
  let drawX := (readV s x).toNat + c
  let drawY := (readV s y).toNat + r
  if sprite.getLsbD (7 - c) then
    if drawX ≥ Config.fbWidth ∨ drawY ≥ Config.fbHeight then s else hitCell (cellIndex drawX drawY) s
  else s

/-- One sprite row, columns left to right (R121, R122). -/
def drawRow (x y : Reg) (r : Nat) (sprite : Byte) (s : State) : State :=
  (List.range 8).foldl (drawPixel x y r sprite) s

/-- `left` sprite rows from row `r` down (R121): a row whose address I + r exceeds 4095 is Fatal MEM_OOB, taken in the
state the rows before it left (R125). -/
def drawRows (x y : Reg) : (left r : Nat) → State → State
  | 0, _, s => s
  | left + 1, r, s =>
    match memRead (s.i.toNat + r) s with
    | .error f => raiseFatal f s
    | .ok sprite => drawRows x y left (r + 1) (drawRow x y r sprite s)

end Sys2Proof.Machine
end

