-- ==== Sys2Proof/Machine/Alu.lean ====
section
/-! DEFINITION. The register-to-register operations (spec/44_alu.md). The effects stand in the rule's order, and each
reads the registers as the effects before it left them, which decides the forms that name VF (R110, D7; log entry 9,
DEDUCED by the spec, unsafe for those forms). -/

namespace Sys2Proof.Machine

/-- LD Vx,Vy, `8XY0` (R100). -/
def execLdReg (x y : Reg) (s : State) : Host.Outcome State Fault Refusal := .next (writeV s x (readV s y))

/-- OR Vx,Vy, `8XY1` (R101): VF is not written (D24; log entry 14). -/
def execOrReg (x y : Reg) (s : State) : Host.Outcome State Fault Refusal :=
  .next (writeV s x (readV s x ||| readV s y))

/-- AND Vx,Vy, `8XY2` (R102): VF is not written (D24; log entry 14). -/
def execAndReg (x y : Reg) (s : State) : Host.Outcome State Fault Refusal :=
  .next (writeV s x (readV s x &&& readV s y))

/-- XOR Vx,Vy, `8XY3` (R103): VF is not written (D24; log entry 14). -/
def execXorReg (x y : Reg) (s : State) : Host.Outcome State Fault Refusal :=
  .next (writeV s x (readV s x ^^^ readV s y))

/-- ADD Vx,Vy, `8XY4` (R104): both operands are read, the result is written, then the carry. -/
def execAddReg (x y : Reg) (s : State) : Host.Outcome State Fault Refusal :=
  let a := readV s x
  let b := readV s y
  .next (writeFlag (writeV s x (BitVec.ofNat 8 (exactSum a b))) (carryOut a b))

/-- SUB Vx,Vy, `8XY5` (R105): the flag is written first, then the subtraction reads V[X] and V[Y] again. -/
def execSub (x y : Reg) (s : State) : Host.Outcome State Fault Refusal :=
  let s1 := writeFlag s (strictlyGreater (readV s x) (readV s y))
  .next (writeV s1 x (readV s1 x - readV s1 y))

/-- SHR Vx, `8XY6` (R106): Y is ignored; the flag is written first, then the shift reads V[X] again. -/
def execShr (x _y : Reg) (s : State) : Host.Outcome State Fault Refusal :=
  let s1 := writeFlag s (lsb (readV s x))
  .next (writeV s1 x (readV s1 x >>> 1))

/-- SUBN Vx,Vy, `8XY7` (R107): the flag is written first, then the subtraction reads V[X] and V[Y] again. -/
def execSubn (x y : Reg) (s : State) : Host.Outcome State Fault Refusal :=
  let s1 := writeFlag s (strictlyGreater (readV s y) (readV s x))
  .next (writeV s1 x (readV s1 y - readV s1 x))

/-- SHL Vx, `8XYE` (R108): Y is ignored; the flag is written first, then the shift reads V[X] again. -/
def execShl (x _y : Reg) (s : State) : Host.Outcome State Fault Refusal :=
  let s1 := writeFlag s (msb (readV s x))
  .next (writeV s1 x (readV s1 x <<< 1))

end Sys2Proof.Machine
end

