-- ==== Sys2Proof/Machine/Display.lean ====
section
/-! DEFINITION. CLS and DRW (spec/46_display.md), the only instructions that change the framebuffer. -/

namespace Sys2Proof.Machine

/-- CLS, `00E0` (R120): VF is not written. -/
def execCls (s : State) : Host.Outcome State Fault Refusal := .next (clearScreen s)

/-- DRW Vx,Vy,N, `DXYN` (R121): VF is cleared first, then the N rows are drawn top to bottom; a row out of memory is
fatal and what the rows before it drew stays (R125). -/
def execDrw (x y n : Fin 16) (s : State) : Host.Outcome State Fault Refusal :=
  .next (drawRows x y n.val 0 (writeFlag s false))

end Sys2Proof.Machine
end

