-- ==== Sys2Proof/Machine/Flow.lean ====
section
/-! DEFINITION. NOP, RET, JP, CALL (spec/41_flow.md). PC has already been advanced by the fetch. -/

namespace Sys2Proof.Machine

/-- NOP, `0000` (R80): no state changes. -/
def execNop (s : State) : Host.Outcome State Fault Refusal := .next s

/-- RET, `00EE` (R81). -/
def execRet (s : State) : Host.Outcome State Fault Refusal := .next (orFatal s (popPc s))

/-- JP, `1NNN` (R82): the target is neither checked nor aligned. -/
def execJp (nnn : Addr) (s : State) : Host.Outcome State Fault Refusal := .next (jumpTo (zextAddr nnn) s)

/-- CALL, `2NNN` (R83). -/
def execCall (nnn : Addr) (s : State) : Host.Outcome State Fault Refusal :=
  .next (orFatal s ((pushPc s).map (jumpTo (zextAddr nnn))))

end Sys2Proof.Machine
end

