-- ==== Sys2Proof/Machine/LoadAdd.lean ====
section
/-! DEFINITION. Immediate loads and the immediate add (spec/43_load_add_imm.md). None writes VF as a flag. -/

namespace Sys2Proof.Machine

/-- LD Vx,NN, `6XNN` (R90). -/
def execLdImm (x : Reg) (nn : Byte) (s : State) : Host.Outcome State Fault Refusal := .next (writeV s x nn)

/-- ADD Vx,NN, `7XNN` (R91): modulo 256, the carry is lost. -/
def execAddImm (x : Reg) (nn : Byte) (s : State) : Host.Outcome State Fault Refusal :=
  .next (writeV s x (readV s x + nn))

/-- LD I,NNN, `ANNN` (R92): the only writer of I. -/
def execLdI (nnn : Addr) (s : State) : Host.Outcome State Fault Refusal := .next (setI (zextAddr nnn) s)

end Sys2Proof.Machine
end

