-- ==== Sys2Proof/Machine/Random.lean ====
section
/-! DEFINITION. RND and the random input it samples (spec/45_random.md). -/

namespace Sys2Proof.Machine

/-- The byte the random input delivers to the next draw: a free value (R116; log entry 2). -/
def nextDraw (s : State) : Byte := Config.rndIn s.draws

/-- One draw is taken from the input, whatever NN is (R115). -/
def takeDraw (s : State) : State := { s with draws := s.draws + 1 }

/-- The effect of RND for a drawn byte `b`: `V[X] <- b and NN` (R115). -/
def loadDrawn (x : Reg) (nn b : Byte) (s : State) : State := writeV s x (b &&& nn)

/-- RND Vx,NN, `CXNN` (R115). -/
def execRnd (x : Reg) (nn : Byte) (s : State) : Host.Outcome State Fault Refusal :=
  .next (loadDrawn x nn (nextDraw s) (takeDraw s))

end Sys2Proof.Machine
end

