-- ==== Sys2Proof/Machine/Skip.lean ====
section
/-! DEFINITION. The conditional skips (spec/42_skip.md): the comparison is on all 8 bits. -/

namespace Sys2Proof.Machine

/-- SE Vx,NN, `3XNN` (R85). -/
def execSeImm (x : Reg) (nn : Byte) (s : State) : Host.Outcome State Fault Refusal :=
  .next (skipIf (readV s x == nn) s)

/-- SNE Vx,NN, `4XNN` (R86). -/
def execSneImm (x : Reg) (nn : Byte) (s : State) : Host.Outcome State Fault Refusal :=
  .next (skipIf (readV s x != nn) s)

/-- SE Vx,Vy, `5XY0` (R87). -/
def execSeReg (x y : Reg) (s : State) : Host.Outcome State Fault Refusal :=
  .next (skipIf (readV s x == readV s y) s)

/-- SNE Vx,Vy, `9XY0` (R88). -/
def execSneReg (x y : Reg) (s : State) : Host.Outcome State Fault Refusal :=
  .next (skipIf (readV s x != readV s y) s)

end Sys2Proof.Machine
end

