-- ==== Sys2Proof/Machine/Cycle.lean ====
section
/-! DEFINITION. The instruction cycle around `exec` (spec/40_cycle.md): the tick, the unrecognized word and its report,
and a word placed for the next fetch. -/

namespace Sys2Proof.Machine

/-- One event on the report output (R145): the word and the address it was fetched from (D9; log entry 7). -/
structure Report where
  word : Word
  addr : Word
  deriving DecidableEq, Repr

/-- An unrecognized word changes nothing beyond the fetch's advance of PC (R75). -/
def execUnrecognized (s : State) : State := s

/-- Decode a fetched word and execute it (R73, R74); `s` is the state after the fetch. -/
def execute (op : Word) (s : State) : Host.Outcome State Fault Refusal :=
  match decodeWord op with
  | .ok i => exec i s
  | .error _ => .next (execUnrecognized s)

/-- `tick()` (R70): nothing while halted (R71, D4; log entry 10); otherwise one fetch, whose fatal error is taken
(R132), and one execution. -/
def tick (s : State) : Host.Outcome State Fault Refusal :=
  if s.halt then .next s
  else
    match fetch s with
    | .error f => .next (raiseFatal f s)
    | .ok (op, s1) => execute op s1

/-- The event the report output carries for an executed word, if any: `report Unrecognized(op, (PC - 2) mod 65536)` in
the state after the fetch (R75). The 23 instructions emit none. -/
def reportOf (op : Word) (s : State) : Option Report :=
  match decodeWord op with
  | .ok _ => none
  | .error _ => some ⟨op, s.pc - 2⟩

/-- The report output of a `tick` started in state `s`: at most one event (R70, R145), none while halted (R71) and none
from a fetch that faults (R136). The unit keeps no count and no history of reports, so the event is an output of the
tick and no state (log entry 7, DESIGN CHOICE, safe). -/
def report (s : State) : Option Report :=
  if s.halt then none
  else
    match fetch s with
    | .error _ => none
    | .ok (op, s1) => reportOf op s1

/-- The bytes of one instruction word placed where the next fetch reads (R33, R72); without effect where no word can be
fetched. -/
def placeWord (s : State) (w : Word) : State :=
  if s.pc.toNat + 1 ≤ 4095 then { s with mem := Memory.writeBytes s.mem s.pc.toNat (wordBytes w) } else s

end Sys2Proof.Machine
end

