-- ==== Sys2Proof/Machine/Step.lean ====
section
/-! DEFINITION. The step: one `tick` (spec/40_cycle.md R70). -/

namespace Sys2Proof.Machine

/-- The core's only step (R8): one `tick`. -/
def step (s : State) : Host.Outcome State Fault Refusal := tick s

/-- The state with an instruction, numbered as spec/opcode_table.json numbers it, placed where `step` fetches next
(log entry 18: it stands for a `load_program`). -/
def State.withFetchWord (s : State) (nbits w : Nat) : State := placeWord s (tableWord nbits w)

end Sys2Proof.Machine
end

