-- ==== Sys2Proof/Machine/HostOps.lean ====
section
/-! DEFINITION. The operations through which the host reaches the unit (spec/00_scope.md R5) and the outputs it reads.
Each is atomic; any interleaving with `tick` is allowed (spec/70_reset_and_hazards.md R157). -/

namespace Sys2Proof.Machine

/-- `reset` (R150): every item at its reset value, at any time, also while halted. The random input is outside the
unit (R116), so the model's count of its draws goes on (log entry 2). -/
def reset (s : State) : State := { State.reset with draws := s.draws }

/-- `load_program(bytes)` (R151, R152): a buffer that does not fit is refused whole and is fatal. -/
def loadProgram (bytes : List Byte) (s : State) : State :=
  if s.halt then s
  else if 0x200 + bytes.length > 4096 then raiseFatal ⟨.romTooLarge, 0⟩ s
  else { s with mem := Memory.writeBytes s.mem 0x200 bytes }

/-- A counter at 0 stays 0 (R140). -/
def countDown (b : Byte) : Byte := if b.toNat > 0 then b - 1 else b

/-- `timer_tick` (R140). -/
def timerTick (s : State) : State :=
  if s.halt then s else { s with dt := countDown s.dt, st := countDown s.st }

/-- `set_key(index, pressed)` (R142): the index is a 4-bit port (D16; log entry 12). -/
def setKey (index : Fin 16) (pressed : Bool) (s : State) : State :=
  if s.halt then s else { s with key := s.key.set index pressed }

/-- The display accessor (R143): the 2048 cells in index order. -/
def display (s : State) : List Bool := (List.range Config.fbCells).map (Screen.cell s.fb)

/-- The `sound` output (R141): the value of `sound_timer`. -/
def sound (s : State) : Byte := s.st

/-- The status output (R132): HALT, the code of HALT_CAUSE, HALT_INFO. -/
def status (s : State) : Bool × BitVec 3 × Word := (s.halt, s.haltCause.code, s.haltInfo)

/-- The seven operations (R5). -/
inductive Operation where
  | reset
  | loadProgram (bytes : List Byte)
  | tick
  | timerTick
  | setKey (index : Fin 16) (pressed : Bool)
  | display
  | sound
  deriving DecidableEq, Repr

/-- What an operation does to the state. The two reads change nothing (R141, R143). -/
def perform (op : Operation) (s : State) : Host.Outcome State Fault Refusal :=
  match op with
  | .reset => .next (reset s)
  | .loadProgram bytes => .next (loadProgram bytes s)
  | .tick => step s
  | .timerTick => .next (timerTick s)
  | .setKey index pressed => .next (setKey index pressed s)
  | .display => .next s
  | .sound => .next s

/-- What the outside sees of an operation. -/
inductive Output where
  /-- The operation has no result and emits nothing. -/
  | silent
  /-- A tick's event on the report output (R145). -/
  | reported (r : Report)
  /-- The display accessor's 2048 booleans (R143). -/
  | cells (l : List Bool)
  /-- The `sound` output (R141). -/
  | level (b : Byte)
  deriving DecidableEq, Repr

/-- The output of an operation performed in state `s`. -/
def respond (op : Operation) (s : State) : Output :=
  match op with
  | .tick =>
    match report s with
    | none => .silent
    | some r => .reported r
  | .display => .cells (display s)
  | .sound => .level (sound s)
  | .reset => .silent
  | .loadProgram _ => .silent
  | .timerTick => .silent
  | .setKey _ _ => .silent

end Sys2Proof.Machine
end

