-- ==== Sys2Proof/Safety.lean ====
section
/-! DEFINITION. The terms claims are made in: the parts of the state and frames over them, a safe run (spec/
60_exceptions.md R135), the states reachable by the seven operations and their invariants (spec/10_state.md R22). -/

namespace Sys2Proof.Machine

/-- The parts of the state other than V0..VF. -/
inductive Part where
  | i | pc | sp | stack | mem | fb | key | dt | st | latch | draws
  deriving DecidableEq, Repr

/-- The halt latch with its cause and information (R18). -/
def latchOf (s : State) : Bool × HaltCause × Word := (s.halt, s.haltCause, s.haltInfo)

/-- Part `p` of the state is the same before and after. Memory is compared byte by byte and the framebuffer cell by
cell, through the model's own reads. -/
def Part.same (s t : State) : Part → Prop
  | .i => t.i = s.i
  | .pc => t.pc = s.pc
  | .sp => t.sp = s.sp
  | .stack => t.stack = s.stack
  | .mem => ∀ a, Memory.read t.mem a = Memory.read s.mem a
  | .fb => ∀ k, Screen.cell t.fb k = Screen.cell s.fb k
  | .key => t.key = s.key
  | .dt => t.dt = s.dt
  | .st => t.st = s.st
  | .latch => latchOf t = latchOf s
  | .draws => t.draws = s.draws

/-- The frame: every register outside `regs` and every part outside `parts` is unchanged from `s` to `t`. -/
def Frame (regs : List Reg) (parts : List Part) (s t : State) : Prop :=
  (∀ k, k ∉ regs → readV t k = readV s k) ∧ ∀ p, p ∉ parts → Part.same s t p

/-- Executing `i` in `s` answers a next state, of which `P` holds. -/
def Completes (i : Instr) (s : State) (P : State → Prop) : Prop := ∃ t, exec i s = .next t ∧ P t

/-- The registers an instruction may write: its destination X, and VF for the six flag writers (R12). -/
def writtenRegs : Instr → List Reg
  | .ldImm x _ | .addImm x _ | .ldReg x _ | .orReg x _ | .andReg x _ | .xorReg x _ | .rnd x _ => [x]
  | .addReg x _ | .sub x _ | .shr x _ | .subn x _ | .shl x _ => [x, vf]
  | .drw _ _ _ => [vf]
  | .nop | .cls | .ret | .jp _ | .call _ | .seImm _ _ | .sneImm _ _ | .seReg _ _ | .sneReg _ _ | .ldI _ => []

/-- The operands of an instruction are the fields of the word `w` that R51 and R52 name, written from R51's table of bit
places, not from the decoder: X = `op[11:8]`, Y = `op[7:4]`, N = `op[3:0]`, NN = `op[7:0]`, NNN = `op[11:0]`. -/
def OperandsAreFields (w : Word) : Instr → Prop
  | .nop | .cls | .ret => True
  | .jp nnn | .call nnn | .ldI nnn => nnn.toNat = w.toNat % 4096
  | .seImm x nn | .sneImm x nn | .ldImm x nn | .addImm x nn | .rnd x nn =>
    x.val = w.toNat / 256 % 16 ∧ nn.toNat = w.toNat % 256
  | .seReg x y | .sneReg x y | .ldReg x y | .orReg x y | .andReg x y | .xorReg x y | .addReg x y | .sub x y | .shr x y
  | .subn x y | .shl x y => x.val = w.toNat / 256 % 16 ∧ y.val = w.toNat / 16 % 16
  | .drw x y n => x.val = w.toNat / 256 % 16 ∧ y.val = w.toNat / 16 % 16 ∧ n.val = w.toNat % 16

/-- The word the next fetch reads: `mem[PC] ++ mem[PC+1]` (R33, R72). -/
def wordAtPc (s : State) : Word :=
  joinBytes (Memory.read s.mem s.pc.toNat) (Memory.read s.mem (s.pc.toNat + 1))

/-- Whether an N-row sprite drawn from state `s` at (V[X], V[Y]) has a set bit on cell (cx, cy): row `cy - V[Y]`, column
`cx - V[X]`, bit 7 leftmost (R122), neither coordinate reduced (R123). -/
def spriteCovers (s : State) (x y : Reg) (n cx cy : Nat) : Bool :=
  decide ((readV s x).toNat ≤ cx ∧ cx < (readV s x).toNat + 8 ∧ (readV s y).toNat ≤ cy ∧ cy < (readV s y).toNat + n) &&
    (Memory.read s.mem (s.i.toNat + (cy - (readV s y).toNat))).getLsbD (7 - (cx - (readV s x).toNat))

/-- One turn of R121's inner loop, written from the rule: row `rc.1`, column `rc.2`. -/
def sourcePixel (x y : Reg) (s : State) (rc : Nat × Nat) : State :=
  let sprite := Memory.read s.mem (s.i.toNat + rc.1)
  if (sprite >>> (7 - rc.2)) &&& 1#8 = 1#8 then
    let drawX := (readV s x).toNat + rc.2
    let drawY := (readV s y).toNat + rc.1
    if drawX ≥ 64 ∨ drawY ≥ 32 then s
    else
      let k := drawY * 64 + drawX
      if Screen.cell s.fb k then { writeV s vf 1 with fb := Screen.toggle s.fb k }
      else { s with fb := Screen.toggle s.fb k }
  else s

/-- R121's loops over the rows 0..rows-1 and, in each, the columns 0..7, from VF cleared. -/
def sourceDraw (x y : Reg) (rows : Nat) (s : State) : State :=
  ((List.range rows).flatMap fun r => (List.range 8).map fun c => (r, c)).foldl (sourcePixel x y) (writeV s vf 0)

/-- A state no fatal error has halted: "every claim should carry HALT = 0" (R135). -/
def Safe (s : State) : Prop := s.halt = false

/-- A run of `n` ticks from `s` that ends in `t` without a fatal error. -/
def SafeRun : Nat → State → State → Prop
  | 0, s, t => Safe s ∧ t = s
  | n + 1, s, t => Safe s ∧ ∃ u, step s = .next u ∧ SafeRun n u t

/-- The states reachable from reset by the seven operations, in any interleaving (R22, R157). -/
inductive Reachable : State → Prop where
  | reset : Reachable State.reset
  | perform {s t : State} (op : Operation) : Reachable s → perform op s = .next t → Reachable t

/-- The invariants of every reachable state (R22), with the canonical forms of the model's data. SP <= 16 (R22 item 2)
is carried by the type. -/
structure Inv (s : State) : Prop where
  /-- R22 item 1. -/
  index : s.i.toNat ≤ 0x0FFF
  /-- R22 item 3. -/
  pc : s.pc.toNat ≤ 0x1002
  /-- R22 item 4. -/
  stack : ∀ k : Fin 16, (s.stack[k]).toNat ≤ 0x1000
  /-- R22 item 5. -/
  timers : s.dt = 0 ∧ s.st = 0
  /-- R22 item 6. -/
  lowMemory : ∀ a, a < 0x200 → Memory.read s.mem a = unlisted a
  /-- R18, R131: the cause is NONE and the information 0 exactly while HALT = 0 has never been left. -/
  latch : s.halt = false → s.haltCause = .noCause ∧ s.haltInfo = 0
  /-- R131: a halted state has a cause. -/
  cause : s.halt = true → s.haltCause ≠ .noCause
  /-- The memory's canonical form. -/
  memory : Memory.wf s.mem = true
  /-- The framebuffer's canonical form. -/
  screen : Screen.wf s.fb = true

end Sys2Proof.Machine
end

