-- ==== Sys2Proof/Certificates/Slice0/Obligations.lean ====
section
/-! DEFINITION. The statements for the provers. `Frame regs parts s t` says that every register outside `regs` and every
part of the state outside `parts` is unchanged, memory byte by byte and the framebuffer cell by cell. -/

open Sys2Proof Sys2Proof.Machine

/-! ## Encoding -/

/-- Decoding the word of any instruction, alone or as the first two bytes of a sequence, gives the instruction back,
every operand at every value. -/
def Obligations.DecodeEncodeRoundTrip : Prop :=
  ∀ (i : Instr) (rest : List Byte),
    decodeWord (encode i) = .ok i ∧ decode (wordBytes (encode i) ++ rest) = .ok (i, rest)

/-- Each word has one meaning: a word that decodes to an instruction is that instruction's encoding. -/
def Obligations.EncodeDecodeRoundTrip : Prop :=
  ∀ (w : Word) (i : Instr), decodeWord w = .ok i → encode i = w

/-- R73: decoding selects the one row of R54's table that the word matches (`op and mask == match`), or none; every
operand of the instruction is the field R51 names of the word; a field the instruction does not use, Y in SHR and SHL,
has no effect. -/
def Obligations.DecodeSelectsTheOneMatchingRow : Prop :=
  (∀ w : Word,
    (∀ i, decodeWord w = .ok i →
      i.row ∈ opcodeRows ∧ (∀ r ∈ opcodeRows, w &&& r.mask = r.pattern ↔ r = i.row) ∧ OperandsAreFields w i) ∧
    (∀ e, decodeWord w = .error e → ∀ r ∈ opcodeRows, w &&& r.mask ≠ r.pattern)) ∧
  ∀ (x y y' : Reg) (s : State), exec (.shr x y) s = exec (.shr x y') s ∧ exec (.shl x y) s = exec (.shl x y') s

/-- R56's list: the words that select no instruction, group by group. -/
def Obligations.UnrecognizedWordsAreTheListedGroups : Prop :=
  ∀ w : Word, decodeWord w = .error (.unrecognized w) ↔
    (nibble1 w = 0x0 ∧ w ≠ 0x0000 ∧ w ≠ 0x00E0 ∧ w ≠ 0x00EE) ∨
    (nibble1 w = 0x5 ∧ nibble4 w ≠ 0x0) ∨
    (nibble1 w = 0x8 ∧ nibble4 w ∈ [0x8, 0x9, 0xA, 0xB, 0xC, 0xD, 0xF]) ∨
    (nibble1 w = 0x9 ∧ nibble4 w ≠ 0x0) ∨
    nibble1 w = 0xB ∨ nibble1 w = 0xE ∨ nibble1 w = 0xF

/-- Words the spec writes out decode as it says: 95_test_vectors.md S11 and the examples of R58, and F107, which is no
instruction (R56's group FNNN, R75's example, T1.2; that such words are absent is decision D15, log entry 8). -/
def Obligations.AnnotatedWordsDecode : Prop :=
  decodeTableWord 16 0xA000 = some (.ldI 0) ∧
  decodeTableWord 16 0x6100 = some (.ldImm 1 0) ∧
  decodeTableWord 16 0xD015 = some (.drw 0 1 5) ∧
  decodeTableWord 16 0x7164 = some (.addImm 1 100) ∧
  decodeTableWord 16 0x4A7F = some (.sneImm 0xA 0x7F) ∧
  decodeTableWord 16 0x8127 = some (.subn 1 2) ∧
  decodeTableWord 16 0x220C = some (.call 0x20C) ∧
  decodeTableWord 16 0xF107 = none

/-! ## The instruction cycle -/

/-- R72: the fetch reads the big-endian word at [PC, PC+1] and advances PC by 2; it succeeds exactly when PC <= 0xFFE,
and otherwise raises MEM_OOB and leaves PC unchanged. -/
def Obligations.FetchReadsBigEndianWordAndAdvancesPc : Prop :=
  ∀ s : State,
    (s.pc.toNat ≤ 0xFFE → ∃ op t, fetch s = .ok (op, t) ∧
      highByte op = Memory.read s.mem s.pc.toNat ∧ lowByte op = Memory.read s.mem (s.pc.toNat + 1) ∧
      t.pc.toNat = (s.pc.toNat + 2) % 65536 ∧ Frame [] [.pc] s t) ∧
    (0xFFE < s.pc.toNat → (∃ info, fetch s = .error ⟨.memOob, info⟩) ∧
      (Safe s → ∃ t, step s = .next t ∧ t.haltCause = .memOob ∧ t.pc = s.pc))

/-- When the bytes at PC decode to an instruction, a step of a state that is not halted is that instruction executed in
the state with PC moved past it, and no report is emitted. -/
def Obligations.StepRunsTheDecodedInstruction : Prop :=
  ∀ (s : State) (i : Instr), Safe s → s.pc.toNat ≤ 0xFFE →
    decode [Memory.read s.mem s.pc.toNat, Memory.read s.mem (s.pc.toNat + 1)] = .ok (i, []) →
    step s = exec i { s with pc := s.pc + 2 } ∧ report s = none

/-- R137: an unrecognized word sets no state and raises no fatal error; it emits one report and execution continues with
the next word. -/
def Obligations.UnrecognizedWordIsReportedAndPassed : Prop :=
  ∀ (s : State) (e : Reject), Safe s → s.pc.toNat ≤ 0xFFE → decodeWord (wordAtPc s) = .error e →
    ∃ t, step s = .next t ∧ t.pc.toNat = s.pc.toNat + 2 ∧ Frame [] [.pc] s t ∧ (report s).isSome = true

/-- A report is emitted exactly for an executed unrecognized word and carries the word and its address. The content is
decision D9 (log entry 7). -/
def Obligations.ReportCarriesWordAndAddress : Prop :=
  ∀ (s : State) (r : Report), report s = some r ↔
    Safe s ∧ s.pc.toNat ≤ 0xFFE ∧ r.word = wordAtPc s ∧ r.addr = s.pc ∧ ∃ e, decodeWord (wordAtPc s) = .error e

/-- A fetch from beyond 0xFFE halts: MEM_OOB with the first address out of range, PC still at the unfetchable word,
nothing else changed, no report. What the latch records and what survives are decisions D2, D3, D23 (log entries 3,
10). -/
def Obligations.FetchOutOfRangeHalts : Prop :=
  ∀ s : State, Safe s → 0xFFE < s.pc.toNat →
    ∃ t, step s = .next t ∧ t.halt = true ∧ t.haltCause = .memOob ∧
      t.haltInfo = (if s.pc.toNat = 0xFFF then 0x1000 else s.pc) ∧ Frame [] [.latch] s t ∧ report s = none

/-- A halted machine stays as it is for any number of ticks and reports nothing (decision D4, log entry 10). -/
def Obligations.HaltedTicksChangeNothing : Prop :=
  ∀ (s : State) (n : Nat), s.halt = true → core.run n s = .next s ∧ report s = none

/-- `raise Fatal(cause, info)` writes the three halt fields and nothing else, and the status output shows them (decision
D2, log entry 3). -/
def Obligations.FatalEntryWritesOnlyTheLatch : Prop :=
  ∀ (f : Fatal) (s : State),
    status (raiseFatal f s) = (true, f.cause.code, f.info) ∧ Frame [] [.latch] s (raiseFatal f s)

/-- Every instruction completes in every state, and so does every step: the model never stops or refuses. That the forms
which are fatal (RET, CALL, DRW, the fetch) answer a next state too, with the latch set, is the model's choice, not the
spec's (log entry 3, DESIGN CHOICE, after decision D2). -/
def Obligations.EveryInstructionAndStepCompletes : Prop :=
  (∀ (i : Instr) (s : State), ∃ t, exec i s = .next t) ∧ ∀ s : State, ∃ t, step s = .next t

/-- A JP at its own address is a fixed point: any number of ticks leaves the whole state as it was, without a fatal
error. -/
def Obligations.JumpToItselfIsAFixedPoint : Prop :=
  ∀ (s : State) (nnn : Addr) (n : Nat), Safe s → s.pc.toNat = nnn.toNat → s.pc.toNat ≤ 0xFFE →
    decodeWord (wordAtPc s) = .ok (.jp nnn) → SafeRun n s s ∧ core.run n s = .next s

/-- A tick that raises a fatal error emits no report. -/
def Obligations.FatalErrorAndReportExcludeEachOther : Prop :=
  ∀ s t : State, Safe s → step s = .next t → t.halt = true → report s = none

/-! ## Flow -/

/-- R80: NOP changes nothing beyond the fetch's advance of PC, and the word 0000 emits no report. -/
def Obligations.NopOnlyAdvancesPc : Prop :=
  ∀ s : State, exec .nop s = .next s ∧
    (Safe s → s.pc.toNat ≤ 0xFFE → wordAtPc s = 0x0000 →
      ∃ t, step s = .next t ∧ t.pc.toNat = s.pc.toNat + 2 ∧ Frame [] [.pc] s t ∧ report s = none)

/-- R82: JP loads NNN, zero-extended, into PC and changes nothing else. -/
def Obligations.JpLoadsPc : Prop :=
  ∀ (nnn : Addr) (s : State),
    Completes (.jp nnn) s fun t => t.pc.toNat = nnn.toNat ∧ Frame [] [.pc] s t

/-- R83: CALL pushes PC, counts SP up and loads NNN into PC; with all 16 entries in use it is fatal and pushes
nothing. -/
def Obligations.CallPushesTheReturnAddress : Prop :=
  ∀ (nnn : Addr) (s : State),
    (s.sp.val = 16 → exec (.call nnn) s = .next (raiseFatal ⟨.stackOverflow, 16⟩ s)) ∧
    (s.sp.val ≠ 16 → Completes (.call nnn) s fun t =>
      t.sp.val = s.sp.val + 1 ∧ t.pc.toNat = nnn.toNat ∧
      (∀ k : Fin 16, t.stack[k] = if k.val = s.sp.val then s.pc else s.stack[k]) ∧
      Frame [] [.pc, .sp, .stack] s t)

/-- RET counts SP down and loads the popped entry into PC; with an empty stack it is fatal. That the popped slot keeps
its value is decision D26 (log entry 14). -/
def Obligations.RetPopsTheReturnAddress : Prop :=
  ∀ s : State,
    (s.sp.val = 0 → exec .ret s = .next (raiseFatal ⟨.stackUnderflow, 0⟩ s)) ∧
    (∀ k : Fin 16, s.sp.val = k.val + 1 → Completes .ret s fun t =>
      t.sp.val = k.val ∧ t.pc = s.stack[k] ∧ Frame [] [.pc, .sp] s t)

/-- CALL followed by RET restores PC to the instruction after the CALL, whatever the subroutine did, if it left SP and
the stack as the CALL did. -/
def Obligations.CallThenRetReturns : Prop :=
  ∀ (nnn : Addr) (s t u : State), s.sp.val ≠ 16 → exec (.call nnn) s = .next t → u.sp = t.sp → u.stack = t.stack →
    Completes .ret u fun w => w.pc = s.pc ∧ w.sp = s.sp ∧ Frame [] [.pc, .sp] u w

/-! ## Skips -/

/-- R85 to R88: each skip adds 2 to PC exactly if its comparison of all 8 bits holds, and changes nothing else. -/
def Obligations.SkipsAddTwoToPcIfTheConditionHolds : Prop :=
  ∀ (x y : Reg) (nn : Byte) (s : State),
    Completes (.seImm x nn) s (fun t =>
      t.pc.toNat = (if (readV s x).toNat = nn.toNat then (s.pc.toNat + 2) % 65536 else s.pc.toNat) ∧
      Frame [] [.pc] s t) ∧
    Completes (.sneImm x nn) s (fun t =>
      t.pc.toNat = (if (readV s x).toNat ≠ nn.toNat then (s.pc.toNat + 2) % 65536 else s.pc.toNat) ∧
      Frame [] [.pc] s t) ∧
    Completes (.seReg x y) s (fun t =>
      t.pc.toNat = (if (readV s x).toNat = (readV s y).toNat then (s.pc.toNat + 2) % 65536 else s.pc.toNat) ∧
      Frame [] [.pc] s t) ∧
    Completes (.sneReg x y) s (fun t =>
      t.pc.toNat = (if (readV s x).toNat ≠ (readV s y).toNat then (s.pc.toNat + 2) % 65536 else s.pc.toNat) ∧
      Frame [] [.pc] s t)

/-! ## Loads and the immediate add -/

/-- R90: `6XNN` loads NN into V[X] and changes nothing else; VF only if X is 0xF. -/
def Obligations.LdImmLoadsTheByte : Prop :=
  ∀ (x : Reg) (nn : Byte) (s : State),
    Completes (.ldImm x nn) s fun t => readV t x = nn ∧ Frame [x] [] s t

/-- R91: `7XNN` adds NN modulo 256 and never touches VF, unless X is 0xF, and then VF is the sum. -/
def Obligations.AddImmWrapsAndLeavesTheFlag : Prop :=
  ∀ (x : Reg) (nn : Byte) (s : State),
    Completes (.addImm x nn) s fun t =>
      (readV t x).toNat = ((readV s x).toNat + nn.toNat) % 256 ∧ Frame [x] [] s t

/-- R92: `ANNN` loads NNN, zero-extended, into I and changes nothing else. -/
def Obligations.LdILoadsTheIndex : Prop :=
  ∀ (nnn : Addr) (s : State),
    Completes (.ldI nnn) s fun t => t.i.toNat = nnn.toNat ∧ Frame [] [.i] s t

/-! ## Register-to-register operations -/

/-- R100: `8XY0` copies V[Y] to V[X] and changes nothing else. -/
def Obligations.LdRegCopiesTheRegister : Prop :=
  ∀ (x y : Reg) (s : State),
    Completes (.ldReg x y) s fun t => readV t x = readV s y ∧ Frame [x] [] s t

/-- OR, AND and XOR work on each of the 8 bits and write V[X] alone: VF changes only if X is 0xF (decision D24, log
entry 14). Every form, X or Y = 0xF included. -/
def Obligations.LogicIsBitwiseAndLeavesTheFlag : Prop :=
  ∀ (x y : Reg) (s : State),
    Completes (.orReg x y) s (fun t =>
      (∀ b, (readV t x).getLsbD b = ((readV s x).getLsbD b || (readV s y).getLsbD b)) ∧ Frame [x] [] s t) ∧
    Completes (.andReg x y) s (fun t =>
      (∀ b, (readV t x).getLsbD b = ((readV s x).getLsbD b && (readV s y).getLsbD b)) ∧ Frame [x] [] s t) ∧
    Completes (.xorReg x y) s (fun t =>
      (∀ b, (readV t x).getLsbD b = ((readV s x).getLsbD b != (readV s y).getLsbD b)) ∧ Frame [x] [] s t)

/-- R109, the laws of the arithmetic, for destinations other than VF (and, where the rule's flag is written first,
sources other than VF): sums and differences modulo 256, the exact flag conditions, one-bit shifts of V[X] itself, and
bitwise operations that leave VF alone. The forms that name VF are `VfAsOperandFollowsTheWrittenOrder`. -/
def Obligations.ArithmeticResultsAndFlags : Prop :=
  ∀ (x y : Reg) (s : State), x ≠ vf →
    Completes (.addReg x y) s (fun t =>
      (readV t x).toNat = ((readV s x).toNat + (readV s y).toNat) % 256 ∧
      readV t vf = (if (readV s x).toNat + (readV s y).toNat > 255 then 1 else 0) ∧ Frame [x, vf] [] s t) ∧
    (y ≠ vf → Completes (.sub x y) s (fun t =>
      (readV t x).toNat = ((readV s x).toNat + 256 - (readV s y).toNat) % 256 ∧
      readV t vf = (if (readV s x).toNat > (readV s y).toNat then 1 else 0) ∧ Frame [x, vf] [] s t)) ∧
    (y ≠ vf → Completes (.subn x y) s (fun t =>
      (readV t x).toNat = ((readV s y).toNat + 256 - (readV s x).toNat) % 256 ∧
      readV t vf = (if (readV s y).toNat > (readV s x).toNat then 1 else 0) ∧ Frame [x, vf] [] s t)) ∧
    Completes (.shr x y) s (fun t =>
      (readV t x).toNat = (readV s x).toNat / 2 ∧ (readV t vf).toNat = (readV s x).toNat % 2 ∧
      Frame [x, vf] [] s t) ∧
    Completes (.shl x y) s (fun t =>
      (readV t x).toNat = (readV s x).toNat * 2 % 256 ∧ (readV t vf).toNat = (readV s x).toNat / 128 ∧
      Frame [x, vf] [] s t) ∧
    Completes (.orReg x y) s (fun t => readV t x = (readV s x ||| readV s y) ∧ readV t vf = readV s vf) ∧
    Completes (.andReg x y) s (fun t => readV t x = (readV s x &&& readV s y) ∧ readV t vf = readV s vf) ∧
    Completes (.xorReg x y) s (fun t => readV t x = (readV s x ^^^ readV s y) ∧ readV t vf = readV s vf)

/-- The forms of the flag writers that name VF, by the written order of effects: for ADD the flag is written last and
survives; for the others it is written first and the second effect works on it. The reading is decision D7 (log
entry 9), not the source's. -/
def Obligations.VfAsOperandFollowsTheWrittenOrder : Prop :=
  ∀ (x y : Reg) (s : State), x ≠ vf → y ≠ vf →
    Completes (.addReg vf y) s (fun t =>
      readV t vf = (if (readV s vf).toNat + (readV s y).toNat > 255 then 1 else 0) ∧ Frame [vf] [] s t) ∧
    Completes (.addReg vf vf) s (fun t =>
      readV t vf = (if (readV s vf).toNat * 2 > 255 then 1 else 0) ∧ Frame [vf] [] s t) ∧
    Completes (.sub vf y) s (fun t =>
      (readV t vf).toNat =
        ((if (readV s vf).toNat > (readV s y).toNat then 1 else 0) + 256 - (readV s y).toNat) % 256 ∧
      Frame [vf] [] s t) ∧
    Completes (.sub x vf) s (fun t =>
      readV t vf = (if (readV s x).toNat > (readV s vf).toNat then 1 else 0) ∧
      (readV t x).toNat =
        ((readV s x).toNat + 256 - (if (readV s x).toNat > (readV s vf).toNat then 1 else 0)) % 256 ∧
      Frame [x, vf] [] s t) ∧
    Completes (.sub vf vf) s (fun t => readV t vf = 0 ∧ Frame [vf] [] s t) ∧
    Completes (.subn vf y) s (fun t =>
      (readV t vf).toNat =
        ((readV s y).toNat + 256 - (if (readV s y).toNat > (readV s vf).toNat then 1 else 0)) % 256 ∧
      Frame [vf] [] s t) ∧
    Completes (.subn x vf) s (fun t =>
      readV t vf = (if (readV s vf).toNat > (readV s x).toNat then 1 else 0) ∧
      (readV t x).toNat =
        ((if (readV s vf).toNat > (readV s x).toNat then 1 else 0) + 256 - (readV s x).toNat) % 256 ∧
      Frame [x, vf] [] s t) ∧
    Completes (.subn vf vf) s (fun t => readV t vf = 0 ∧ Frame [vf] [] s t) ∧
    (∀ z, Completes (.shr vf z) s (fun t => readV t vf = 0 ∧ Frame [vf] [] s t)) ∧
    (∀ z, Completes (.shl vf z) s (fun t =>
      readV t vf = (if (readV s vf).toNat ≥ 128 then 2 else 0) ∧ Frame [vf] [] s t))

/-! ## Random -/

/-- R115: RND takes one byte from the random input and loads its bits under NN into V[X]; bits where NN has a 0 are 0.
The byte is the free value `Config.rndIn` (log entry 2); nothing rests on what it is. -/
def Obligations.RndLoadsTheMaskedDraw : Prop :=
  ∀ (x : Reg) (nn : Byte) (s : State),
    Completes (.rnd x nn) s fun t =>
      readV t x = (Config.rndIn s.draws &&& nn) ∧ readV t x &&& ~~~nn = 0 ∧ t.draws = s.draws + 1 ∧
      Frame [x] [.draws] s t

/-- Only RND samples the random input, once per execution (decision D8; `draws` is the model's own field, log
entry 2). -/
def Obligations.OnlyRndTakesADraw : Prop :=
  ∀ (i : Instr) (s t : State), exec i s = .next t →
    (∀ x nn, i = .rnd x nn → t.draws = s.draws + 1) ∧ ((∀ x nn, i ≠ .rnd x nn) → t.draws = s.draws)

/-! ## Display -/

/-- R120: CLS turns all cells off, for any prior state, and writes nothing else, VF included. -/
def Obligations.ClsTurnsAllCellsOff : Prop :=
  ∀ s : State, Completes .cls s fun t => (∀ k, Screen.cell t.fb k = false) ∧ Frame [] [.fb] s t

/-- DRW executes the statements of R121's pseudocode in order, for every X and Y: VF cleared, then row by row and column
by column; the first row whose address I + r exceeds 4095 is Fatal MEM_OOB, after the rows before it. The forms with X
or Y = 0xF rest on decision D7 (log entry 9), the state kept after the fatal row on D3 (R125, log entry 10), the sums that
are not truncated on D11 (log entry 15). -/
def Obligations.DrwFollowsTheSourceStatements : Prop :=
  ∀ (x y n : Fin 16) (s : State),
    (s.i.toNat + n.val ≤ 4096 ∨ n.val = 0 → exec (.drw x y n) s = .next (sourceDraw x y n.val s)) ∧
    (4096 < s.i.toNat + n.val ∧ n.val ≠ 0 → exec (.drw x y n) s =
      .next (raiseFatal ⟨.memOob, BitVec.ofNat 16 (max s.i.toNat 4096)⟩ (sourceDraw x y (4096 - s.i.toNat) s)))

/-- The closed form of a draw whose coordinate registers are not VF and whose rows are in memory: every cell of the
screen is its old value exclusive-or whether the sprite covers it, VF tells whether a cell that was on was covered, and
nothing else changes. It rests on D11 where V[X] + c or V[Y] + r exceeds 255 (log entry 15). -/
def Obligations.DrwTogglesExactlyTheCoveredCells : Prop :=
  ∀ (x y n : Fin 16) (s : State), x ≠ vf → y ≠ vf → s.i.toNat + n.val ≤ 4096 →
    Completes (.drw x y n) s fun t =>
      (∀ cx cy, cx < 64 → cy < 32 →
        Screen.cell t.fb (cellIndex cx cy) = (Screen.cell s.fb (cellIndex cx cy) != spriteCovers s x y n.val cx cy)) ∧
      ((∃ cx cy, cx < 64 ∧ cy < 32 ∧ Screen.cell s.fb (cellIndex cx cy) = true ∧
          spriteCovers s x y n.val cx cy = true) → readV t vf = 1) ∧
      ((∀ cx cy, cx < 64 → cy < 32 → Screen.cell s.fb (cellIndex cx cy) = true →
          spriteCovers s x y n.val cx cy = false) → readV t vf = 0) ∧
      (∀ k, 2048 ≤ k → Screen.cell t.fb k = Screen.cell s.fb k) ∧
      Frame [vf] [.fb] s t

/-- The frame of DRW, for every form: only VF, the framebuffer and, if a row lies past the end of memory, the latch may
change; VF ends 0 or 1. -/
def Obligations.DrwFrame : Prop :=
  ∀ (x y n : Fin 16) (s : State),
    Completes (.drw x y n) s fun t =>
      (readV t vf = 0 ∨ readV t vf = 1) ∧ Frame [vf] [.fb, .latch] s t ∧
      (s.i.toNat + n.val ≤ 4096 ∨ n.val = 0 → latchOf t = latchOf s) ∧
      (n.val = 0 → readV t vf = 0 ∧ Frame [vf] [] s t)

/-- Drawing the same sprite twice at the same place restores every cell; if it covers a cell of the screen and the cells
it covers were off before, the second draw reports the collision. -/
def Obligations.DrawingTwiceRestoresTheScreen : Prop :=
  ∀ (x y n : Fin 16) (s t u : State), x ≠ vf → y ≠ vf → s.i.toNat + n.val ≤ 4096 →
    exec (.drw x y n) s = .next t → exec (.drw x y n) t = .next u →
    (∀ k, Screen.cell u.fb k = Screen.cell s.fb k) ∧
    ((∃ cx cy, cx < 64 ∧ cy < 32 ∧ spriteCovers s x y n.val cx cy = true) →
      (∀ cx cy, cx < 64 → cy < 32 → spriteCovers s x y n.val cx cy = true →
        Screen.cell s.fb (cellIndex cx cy) = false) → readV t vf = 0 ∧ readV u vf = 1)

/-! ## The host's operations -/

/-- R140: `timer_tick` decrements each timer that is not 0 by exactly 1, leaves one at 0, and touches nothing else;
while halted it does nothing. -/
def Obligations.TimerTickCountsDownToZero : Prop :=
  ∀ s : State,
    (Safe s → ∃ t, perform .timerTick s = .next t ∧ t.dt.toNat = s.dt.toNat - 1 ∧ t.st.toNat = s.st.toNat - 1 ∧
      Frame [] [.dt, .st] s t) ∧
    (s.halt = true → perform .timerTick s = .next s)

/-- `set_key` writes one keypad bit and touches nothing else. That the index is a 4-bit port is decision D16 (log
entry 12). -/
def Obligations.SetKeyWritesOneKey : Prop :=
  ∀ (index : Fin 16) (pressed : Bool) (s : State), Safe s →
    ∃ t, perform (.setKey index pressed) s = .next t ∧
      (∀ k : Fin 16, t.key[k] = if k = index then pressed else s.key[k]) ∧ Frame [] [.key] s t

/-- R143: `display` gives the 2048 cells in index order, row 0 left to right, then row 1, and so on, and changes
nothing. -/
def Obligations.DisplayGivesTheCellsInOrder : Prop :=
  ∀ s : State, ∃ l, respond .display s = .cells l ∧ l.length = 2048 ∧
    (∀ x y, x < 64 → y < 32 → l[y * 64 + x]? = some (Screen.cell s.fb (cellIndex x y))) ∧
    perform .display s = .next s

/-- `load_program` copies a buffer that fits to 0x200 up, unchanged and in order, and writes nothing else. When it may be
used is decision D14 (log entry 16). -/
def Obligations.LoadProgramCopiesTheBytes : Prop :=
  ∀ (bytes : List Byte) (s : State), Safe s → 0x200 + bytes.length ≤ 4096 →
    ∃ t, perform (.loadProgram bytes) s = .next t ∧
      (∀ k (h : k < bytes.length), Memory.read t.mem (0x200 + k) = bytes[k]) ∧
      (∀ a, a < 0x200 ∨ 0x200 + bytes.length ≤ a → Memory.read t.mem a = Memory.read s.mem a) ∧
      Frame [] [.mem] s t

/-- A buffer that does not fit is refused whole (R152): no byte is copied and the latch is set with ROM_TOO_LARGE; 3584
bytes are still loaded and fill 0x200..0xFFF. That every operation but `reset` then leaves the whole state as it is, is
decision D4 (R134, log entry 10). -/
def Obligations.LoadProgramRefusesWhatDoesNotFit : Prop :=
  ∀ (bytes : List Byte) (s : State), Safe s →
    (4096 < 0x200 + bytes.length → ∃ t, perform (.loadProgram bytes) s = .next t ∧
      t.halt = true ∧ t.haltCause = .romTooLarge ∧ Frame [] [.latch] s t ∧
      ∀ op, op ≠ .reset → perform op t = .next t) ∧
    (bytes.length = 3584 → ∃ t, perform (.loadProgram bytes) s = .next t ∧ Safe t ∧
      ∀ k (h : k < bytes.length), Memory.read t.mem (0x200 + k) = bytes[k])

/-- While halted every operation but `reset` changes nothing, and `reset` clears the latch (decisions D4, D5, log
entry 10). -/
def Obligations.OnlyResetActsWhileHalted : Prop :=
  ∀ (op : Operation) (s : State), s.halt = true →
    (op ≠ .reset → perform op s = .next s) ∧ ∃ t, perform .reset s = .next t ∧ Safe t

/-- `reset` leaves every item at its listed value, from any state: everything zero, PC = 0x200, the glyph 0 at 0..4,
zero from 0x050 up. The clear latch is decision D2 (log entry 3). Nothing is said of font bytes 5..79, which are
presumed (log entry 1). -/
def Obligations.ResetLeavesTheListedValues : Prop :=
  ∀ s : State, ∃ t, perform .reset s = .next t ∧
    (∀ k, readV t k = 0) ∧ t.i = 0 ∧ t.pc = 0x200 ∧ t.sp.val = 0 ∧ (∀ k : Fin 16, t.stack[k] = 0) ∧
    [0, 1, 2, 3, 4].map (Memory.read t.mem) = [0xF0, 0x90, 0x90, 0x90, 0xF0] ∧
    (∀ a, 80 ≤ a → Memory.read t.mem a = 0) ∧ (∀ k, Screen.cell t.fb k = false) ∧
    (∀ k : Fin 16, t.key[k] = false) ∧ t.dt = 0 ∧ t.st = 0 ∧ status t = (false, 0, 0)

/-- A program loaded over the place PC stands at, wherever in the program that is, is what the very next tick executes: no
fetch cache, nothing to flush. If the loaded word is no instruction, the tick passes it. -/
def Obligations.LoadIsSeenByTheNextFetch : Prop :=
  ∀ (bytes : List Byte) (k : Nat) (hi lo : Byte) (s t : State), Safe s → 0x200 + bytes.length ≤ 4096 →
    s.pc.toNat = 0x200 + k → bytes[k]? = some hi → bytes[k + 1]? = some lo →
    perform (.loadProgram bytes) s = .next t →
    (∀ i, decodeWord (joinBytes hi lo) = .ok i → perform .tick t = exec i { t with pc := s.pc + 2 }) ∧
    (∀ e, decodeWord (joinBytes hi lo) = .error e → perform .tick t = .next { t with pc := s.pc + 2 })

/-! ## Invariants and whole-machine rules -/

/-- The state after reset satisfies the invariants of R22. -/
def Obligations.ResetSatisfiesTheInvariants : Prop := Inv State.reset

/-- Every step keeps the invariants of R22 and the canonical forms, from every state that satisfies them. -/
def Obligations.StepKeepsTheInvariants : Prop :=
  ∀ s t : State, Inv s → step s = .next t → Inv t

/-- Every operation of the host, the tick among them, keeps the invariants of R22 and the canonical forms, from every
state that satisfies them. -/
def Obligations.OperationsKeepTheInvariants : Prop :=
  ∀ (op : Operation) (s t : State), Inv s → perform op s = .next t → Inv t

/-- The invariants of R22 hold in every state reachable from reset by the seven operations, in any interleaving. -/
def Obligations.ReachableStatesSatisfyTheInvariants : Prop :=
  ∀ s : State, Reachable s → Inv s

/-- R22 items 3 and 7, as a rule about the latch: from a state that satisfies the invariants a tick that halts records
STACK_UNDERFLOW with 0, STACK_OVERFLOW with 16, or MEM_OOB with 0x1000, 0x1001 or 0x1002, the last two from a fetch only.
The codes are decision D2 (log entry 3). -/
def Obligations.FatalErrorsFromInvariantStates : Prop :=
  ∀ s t : State, Inv s → Safe s → step s = .next t → t.halt = true →
    status t = (true, 2, 0) ∨ status t = (true, 3, 16) ∨ status t = (true, 4, 0x1000) ∨
    (0x1000 < s.pc.toNat ∧ t.pc = s.pc ∧ status t = (true, 4, s.pc))

/-- No instruction writes memory, the keypad or a timer. -/
def Obligations.InstructionsLeaveMemoryKeysAndTimers : Prop :=
  ∀ (i : Instr) (s t : State), exec i s = .next t →
    (∀ a, Memory.read t.mem a = Memory.read s.mem a) ∧ t.key = s.key ∧ t.dt = s.dt ∧ t.st = s.st

/-- The framebuffer is changed by CLS and DRW only, I by LD I only, the stack by CALL only, SP by CALL and RET only. -/
def Obligations.ScreenIndexAndStackHaveOnlyTheirWriters : Prop :=
  ∀ (i : Instr) (s t : State), exec i s = .next t →
    (i ≠ .cls → (∀ x y n, i ≠ .drw x y n) → ∀ k, Screen.cell t.fb k = Screen.cell s.fb k) ∧
    ((∀ nnn, i ≠ .ldI nnn) → t.i = s.i) ∧
    ((∀ nnn, i ≠ .call nnn) → t.stack = s.stack) ∧
    ((∀ nnn, i ≠ .call nnn) → i ≠ .ret → t.sp = s.sp)

/-- An instruction changes no register but its destination and, for the six flag writers, VF; and an instruction other
than JP, CALL, RET and the skips leaves PC where the fetch put it. That the rows which do not mention VF leave it is
decision D24 (log entry 14). -/
def Obligations.RegistersAndPcHaveOnlyTheirWriters : Prop :=
  ∀ (i : Instr) (s t : State), exec i s = .next t →
    (∀ k, k ∉ writtenRegs i → readV t k = readV s k) ∧
    ((∀ nnn, i ≠ .jp nnn) → (∀ nnn, i ≠ .call nnn) → i ≠ .ret → (∀ x nn, i ≠ .seImm x nn) →
      (∀ x nn, i ≠ .sneImm x nn) → (∀ x y, i ≠ .seReg x y) → (∀ x y, i ≠ .sneReg x y) → t.pc = s.pc)

/-- The closed list of R131 for instructions: an instruction halts if and only if it is RET with an empty stack, CALL with
a full one, or DRW with a row past the end of memory; and each of the three conditions gives its cause and information.
The codes and the information are decision D2 (log entry 3). -/
def Obligations.InstructionsHaltExactlyOnTheListedConditions : Prop :=
  ∀ (i : Instr) (s t : State), Safe s → exec i s = .next t →
    (t.halt = true ↔
      (i = .ret ∧ s.sp.val = 0) ∨ ((∃ nnn, i = .call nnn) ∧ s.sp.val = 16) ∨
      ∃ x y n, i = .drw x y n ∧ n.val ≠ 0 ∧ 4096 < s.i.toNat + n.val) ∧
    (i = .ret → s.sp.val = 0 → status t = (true, 2, 0)) ∧
    (∀ nnn, i = .call nnn → s.sp.val = 16 → status t = (true, 3, 16)) ∧
    (∀ x y n, i = .drw x y n → n.val ≠ 0 → 4096 < s.i.toNat + n.val →
      status t = (true, 4, BitVec.ofNat 16 (max s.i.toNat 4096)))

/-- No instruction reads the keypad or the timers: given the same random byte, a tick from two states that differ only
there does the same, so the host's `set_key` and `timer_tick` cannot change what a program computes. For CXNN the two
ticks draw the same byte `Config.rndIn s.draws`, which is the model's choice (log entry 2, DESIGN CHOICE). -/
def Obligations.TicksDoNotReadKeysOrTimers : Prop :=
  ∀ (s t : State) (key : Vector Bool 16) (dt st : Byte), step s = .next t →
    step { s with key := key, dt := dt, st := st } = .next { t with key := key, dt := dt, st := st } ∧
    report { s with key := key, dt := dt, st := st } = report s

/-- Every operation keeps the canonical forms of memory and framebuffer, from every state that has them. -/
def Obligations.OperationsKeepTheCanonicalForms : Prop :=
  ∀ (op : Operation) (s t : State), Memory.wf s.mem = true → Screen.wf s.fb = true → perform op s = .next t →
    Memory.wf t.mem = true ∧ Screen.wf t.fb = true
end

