-- ==== Sys2Proof/Laws/Decode.lean ====
section
/-! SUPPORT. The fields of a word: taking them apart and putting them together, and bytes joined and split. -/

namespace Sys2Proof

@[simp] theorem nibble1_ofNibbles (a b c d : Nibble) : nibble1 (ofNibbles a b c d) = a := by
  simp only [nibble1, ofNibbles]
  refine BitVec.eq_of_getLsbD_eq fun i hi => ?_
  interval_cases i <;> (simp only [BitVec.getLsbD_extractLsb', BitVec.getLsbD_append]; rfl)

@[simp] theorem nibble2_ofNibbles (a b c d : Nibble) : nibble2 (ofNibbles a b c d) = b := by
  simp only [nibble2, ofNibbles]
  refine BitVec.eq_of_getLsbD_eq fun i hi => ?_
  interval_cases i <;> (simp only [BitVec.getLsbD_extractLsb', BitVec.getLsbD_append]; rfl)

@[simp] theorem nibble3_ofNibbles (a b c d : Nibble) : nibble3 (ofNibbles a b c d) = c := by
  simp only [nibble3, ofNibbles]
  refine BitVec.eq_of_getLsbD_eq fun i hi => ?_
  interval_cases i <;> (simp only [BitVec.getLsbD_extractLsb', BitVec.getLsbD_append]; rfl)

@[simp] theorem nibble4_ofNibbles (a b c d : Nibble) : nibble4 (ofNibbles a b c d) = d := by
  simp only [nibble4, ofNibbles]
  refine BitVec.eq_of_getLsbD_eq fun i hi => ?_
  interval_cases i <;> (simp only [BitVec.getLsbD_extractLsb', BitVec.getLsbD_append]; rfl)

/-- A word is its four fields. -/
@[simp] theorem ofNibbles_nibbles (w : Word) : ofNibbles (nibble1 w) (nibble2 w) (nibble3 w) (nibble4 w) = w := by
  simp only [nibble1, nibble2, nibble3, nibble4, ofNibbles]
  refine BitVec.eq_of_getLsbD_eq fun i hi => ?_
  interval_cases i <;> (simp only [BitVec.getLsbD_extractLsb', BitVec.getLsbD_append]; rfl)

/-- NN is its two fields. -/
@[simp] theorem immOf_extract (nn : Byte) : immOf (nn.extractLsb' 4 4) (nn.extractLsb' 0 4) = nn := by
  simp only [immOf]
  refine BitVec.eq_of_getLsbD_eq fun i hi => ?_
  interval_cases i <;> (simp only [BitVec.getLsbD_extractLsb', BitVec.getLsbD_append]; rfl)

/-- NNN is its three fields. -/
@[simp] theorem addrOf_extract (nnn : Addr) :
    addrOf (nnn.extractLsb' 8 4) (nnn.extractLsb' 4 4) (nnn.extractLsb' 0 4) = nnn := by
  simp only [addrOf]
  refine BitVec.eq_of_getLsbD_eq fun i hi => ?_
  interval_cases i <;> (simp only [BitVec.getLsbD_extractLsb', BitVec.getLsbD_append]; rfl)

/-- The fields of a word as numbers, by the bit places of R51. -/
theorem nibble2_toNat (w : Word) : (nibble2 w).toNat = w.toNat / 256 % 16 := by
  simp [nibble2, Nat.shiftRight_eq_div_pow]

theorem nibble3_toNat (w : Word) : (nibble3 w).toNat = w.toNat / 16 % 16 := by
  simp [nibble3, Nat.shiftRight_eq_div_pow]

theorem nibble4_toNat (w : Word) : (nibble4 w).toNat = w.toNat % 16 := by simp [nibble4]

theorem immOf_toNat (w : Word) : (immOf (nibble3 w) (nibble4 w)).toNat = w.toNat % 256 := by
  simp only [immOf, BitVec.toNat_append, nibble3_toNat, nibble4_toNat]
  rw [← Nat.shiftLeft_add_eq_or_of_lt (by omega)]
  simp only [Nat.shiftLeft_eq]
  omega

theorem addrOf_toNat (w : Word) : (addrOf (nibble2 w) (nibble3 w) (nibble4 w)).toNat = w.toNat % 4096 := by
  simp only [addrOf, BitVec.toNat_append, nibble2_toNat, nibble3_toNat, nibble4_toNat]
  rw [← Nat.shiftLeft_add_eq_or_of_lt (by omega), ← Nat.shiftLeft_add_eq_or_of_lt (by omega)]
  simp only [Nat.shiftLeft_eq]
  omega

@[simp] theorem nibbleIndex_indexNibble (x : Fin 16) : nibbleIndex (indexNibble x) = x := rfl

@[simp] theorem indexNibble_nibbleIndex (n : Nibble) : indexNibble (nibbleIndex n) = n := rfl

/-- A word is its two bytes (R33). -/
@[simp] theorem joinBytes_high_low (w : Word) : joinBytes (highByte w) (lowByte w) = w := by
  simp only [joinBytes, highByte, lowByte]
  refine BitVec.eq_of_getLsbD_eq fun i hi => ?_
  interval_cases i <;> (simp only [BitVec.getLsbD_extractLsb', BitVec.getLsbD_append]; rfl)

@[simp] theorem highByte_joinBytes (hi lo : Byte) : highByte (joinBytes hi lo) = hi := by
  simp only [joinBytes, highByte]
  refine BitVec.eq_of_getLsbD_eq fun i hi => ?_
  interval_cases i <;> (simp only [BitVec.getLsbD_extractLsb', BitVec.getLsbD_append]; rfl)

@[simp] theorem lowByte_joinBytes (hi lo : Byte) : lowByte (joinBytes hi lo) = lo := by
  simp only [joinBytes, lowByte]
  refine BitVec.eq_of_getLsbD_eq fun i hi => ?_
  interval_cases i <;> (simp only [BitVec.getLsbD_extractLsb', BitVec.getLsbD_append]; rfl)

/-- Decoding the two bytes of a word decodes the word. -/
theorem decode_wordBytes (w : Word) (rest : List Byte) :
    decode (wordBytes w ++ rest) =
      match decodeWord w with
      | .ok i => .ok (i, rest)
      | .error e => .error e := by
  cases h : decodeWord w <;> simp [decode, wordBytes, h]

end Sys2Proof
end

