-- ==== Sys2Proof/Laws/Memory.lean ====
section
/-! SUPPORT. Memory: a read after a write, and that every memory operation keeps the canonical form. -/

namespace Sys2Proof.Machine

theorem read_insertCell (m : Memory) (a b : Nat) (v : Byte) (h : ∀ c ∈ m, c.1 ≠ a) :
    Memory.read (Memory.insertCell a v m) b = if b = a then v else Memory.read m b := by
  induction m with
  | nil => simp [Memory.insertCell, Memory.read, eq_comm]
  | cons c rest ih =>
    obtain ⟨d, w⟩ := c
    have hd : d ≠ a := h (d, w) (by simp)
    have hr := ih fun c hc => h c (by simp [hc])
    simp only [Memory.insertCell]
    split
    · simp [Memory.read, eq_comm]
    · simp only [Memory.read, hr]
      by_cases hb : d = b
      · subst hb; simp [hd]
      · simp [hb]

theorem read_filter_same (m : Memory) (a : Nat) :
    Memory.read (m.filter fun c => c.1 != a) a = unlisted a := by
  induction m with
  | nil => rfl
  | cons c rest ih =>
    obtain ⟨d, w⟩ := c
    by_cases h : d = a <;> simp [Memory.read, h, ih]

theorem read_filter_other (m : Memory) {a b : Nat} (hb : b ≠ a) :
    Memory.read (m.filter fun c => c.1 != a) b = Memory.read m b := by
  induction m with
  | nil => rfl
  | cons c rest ih =>
    obtain ⟨d, w⟩ := c
    by_cases h : d = a
    · subst h; simp [Memory.read, ih, hb.symm]
    · simp [Memory.read, ih, h]

/-- A read after a write: the written byte there, every other byte as before. It holds of every list. -/
@[simp] theorem read_write (m : Memory) (a b : Nat) (v : Byte) :
    Memory.read (Memory.write m a v) b = if b = a then v else Memory.read m b := by
  by_cases hb : b = a
  · subst hb
    by_cases hv : v = unlisted b
    · simp [Memory.write, hv, read_filter_same]
    · simp [Memory.write, hv, read_insertCell]
  · by_cases hv : v = unlisted a
    · simp [Memory.write, hv, read_filter_other m hb, hb]
    · simp [Memory.write, hv, read_insertCell, read_filter_other m hb, hb]

/-- A read after consecutive writes. -/
theorem read_writeBytes (l : List Byte) (m : Memory) (a b : Nat) :
    Memory.read (Memory.writeBytes m a l) b =
      if a ≤ b then (l[b - a]?).getD (Memory.read m b) else Memory.read m b := by
  induction l generalizing m a with
  | nil => simp [Memory.writeBytes]
  | cons v rest ih =>
    simp only [Memory.writeBytes, ih, read_write]
    rcases Nat.lt_trichotomy a b with h | h | h
    · obtain ⟨k, rfl⟩ := Nat.exists_eq_add_of_lt h
      have h1 : a + k + 1 - (a + 1) = k := by omega
      have h2 : a + k + 1 - a = k + 1 := by omega
      simp [h1, h2, Nat.le_of_lt h, show a + 1 ≤ a + k + 1 by omega, show a + k + 1 ≠ a by omega]
    · subst h; simp
    · simp [show ¬ a + 1 ≤ b by omega, show ¬ a ≤ b by omega, show b ≠ a by omega]

/-- What the canonical form says, entry by entry. -/
theorem wf_cons (a : Nat) (v : Byte) (m : Memory) :
    Memory.wf ((a, v) :: m) = true ↔
      a < Config.memSize ∧ v ≠ unlisted a ∧ (∀ c ∈ m, a < c.1) ∧ Memory.wf m = true := by
  simp [Memory.wf, and_assoc]

theorem wf_filter (m : Memory) (p : Host.Cell → Bool) (h : Memory.wf m = true) : Memory.wf (m.filter p) = true := by
  induction m with
  | nil => rfl
  | cons c rest ih =>
    obtain ⟨a, v⟩ := c
    rw [wf_cons] at h
    by_cases hp : p (a, v) = true
    · rw [List.filter_cons_of_pos hp, wf_cons]
      exact ⟨h.1, h.2.1, fun c hc => h.2.2.1 c (List.mem_of_mem_filter hc), ih h.2.2.2⟩
    · rw [List.filter_cons_of_neg hp]
      exact ih h.2.2.2

theorem mem_insertCell (m : Memory) (a : Nat) (v : Byte) (c : Host.Cell) :
    c ∈ Memory.insertCell a v m ↔ c = (a, v) ∨ c ∈ m := by
  induction m with
  | nil => simp [Memory.insertCell]
  | cons d rest ih =>
    simp only [Memory.insertCell]
    split <;> simp [ih, or_left_comm]

theorem wf_insertCell (m : Memory) (a : Nat) (v : Byte) (ha : a < Config.memSize) (hv : v ≠ unlisted a)
    (hm : ∀ c ∈ m, c.1 ≠ a) (h : Memory.wf m = true) : Memory.wf (Memory.insertCell a v m) = true := by
  induction m with
  | nil => simp [Memory.insertCell, ha, hv, Memory.wf]
  | cons c rest ih =>
    obtain ⟨b, w⟩ := c
    have hw := h
    rw [wf_cons] at h
    have hb : b ≠ a := hm (b, w) (by simp)
    simp only [Memory.insertCell]
    split
    next hlt =>
      rw [wf_cons]
      refine ⟨ha, hv, fun c hc => ?_, hw⟩
      rcases List.mem_cons.mp hc with rfl | hc
      · exact hlt
      · exact hlt.trans (h.2.2.1 c hc)
    next hlt =>
      rw [wf_cons]
      refine ⟨h.1, h.2.1, fun c hc => ?_, ih (fun c hc => hm c (by simp [hc])) h.2.2.2⟩
      rcases (mem_insertCell rest a v c).mp hc with rfl | hc
      · exact Nat.lt_of_le_of_ne (Nat.le_of_not_lt hlt) hb
      · exact h.2.2.1 c hc

/-- A write inside the address space keeps the canonical form. -/
theorem wf_write (m : Memory) (a : Nat) (v : Byte) (ha : a < Config.memSize) (h : Memory.wf m = true) :
    Memory.wf (Memory.write m a v) = true := by
  have hf := wf_filter m (fun c => c.1 != a) h
  by_cases hv : v = unlisted a
  · simpa [Memory.write, hv] using hf
  · simpa [Memory.write, hv] using
      wf_insertCell _ a v ha hv (fun c hc => by simpa using (List.mem_filter.mp hc).2) hf

/-- Consecutive writes inside the address space keep the canonical form. -/
theorem wf_writeBytes (l : List Byte) (m : Memory) (a : Nat) (ha : a + l.length ≤ Config.memSize)
    (h : Memory.wf m = true) : Memory.wf (Memory.writeBytes m a l) = true := by
  induction l generalizing m a with
  | nil => exact h
  | cons v rest ih =>
    simp only [List.length_cons] at ha
    exact ih _ _ (by omega) (wf_write m a v (by omega) h)

end Sys2Proof.Machine
end

