-- ==== Sys2Proof/Laws/Screen.lean ====
section
/-! SUPPORT. The framebuffer: a cell after a toggle, and that toggling keeps the canonical form. -/

namespace Sys2Proof.Machine

@[simp] theorem cell_nil (k : Nat) : Screen.cell [] k = false := rfl

theorem cell_eq (fb : Screen) (k : Nat) : Screen.cell fb k = decide (k ∈ fb) := by
  simp [Screen.cell]

theorem mem_insertScreen (fb : Screen) (k j : Nat) : j ∈ Screen.insertCell k fb ↔ j = k ∨ j ∈ fb := by
  induction fb with
  | nil => simp [Screen.insertCell]
  | cons d rest ih =>
    simp only [Screen.insertCell]
    split <;> simp [ih, or_left_comm]

/-- A toggle flips its cell and no other. It holds of every list. -/
@[simp] theorem cell_toggle (fb : Screen) (k j : Nat) :
    Screen.cell (Screen.toggle fb k) j = if j = k then !Screen.cell fb k else Screen.cell fb j := by
  simp only [Screen.toggle, cell_eq]
  by_cases hk : k ∈ fb <;> by_cases hj : j = k <;> simp [hk, hj, mem_insertScreen]

theorem wf_screen_cons (k : Nat) (fb : Screen) :
    Screen.wf (k :: fb) = true ↔ k < Config.fbCells ∧ (∀ j ∈ fb, k < j) ∧ Screen.wf fb = true := by
  simp [Screen.wf, and_assoc]

theorem wf_screen_filter (fb : Screen) (p : Nat → Bool) (h : Screen.wf fb = true) :
    Screen.wf (fb.filter p) = true := by
  induction fb with
  | nil => rfl
  | cons k rest ih =>
    rw [wf_screen_cons] at h
    by_cases hp : p k = true
    · rw [List.filter_cons_of_pos hp, wf_screen_cons]
      exact ⟨h.1, fun j hj => h.2.1 j (List.mem_of_mem_filter hj), ih h.2.2⟩
    · rw [List.filter_cons_of_neg hp]
      exact ih h.2.2

theorem wf_screen_insert (fb : Screen) (k : Nat) (hk : k < Config.fbCells) (hm : k ∉ fb) (h : Screen.wf fb = true) :
    Screen.wf (Screen.insertCell k fb) = true := by
  induction fb with
  | nil => simp [Screen.insertCell, hk, Screen.wf]
  | cons j rest ih =>
    have hw := h
    rw [wf_screen_cons] at h
    obtain ⟨hj, hr⟩ : k ≠ j ∧ k ∉ rest := by simpa using hm
    simp only [Screen.insertCell]
    split
    next hlt =>
      rw [wf_screen_cons]
      refine ⟨hk, fun i hi => ?_, hw⟩
      rcases List.mem_cons.mp hi with rfl | hi
      · exact hlt
      · exact hlt.trans (h.2.1 i hi)
    next hlt =>
      rw [wf_screen_cons]
      refine ⟨h.1, fun i hi => ?_, ih hr h.2.2⟩
      rcases (mem_insertScreen rest k i).mp hi with rfl | hi
      · exact Nat.lt_of_le_of_ne (Nat.le_of_not_lt hlt) (Ne.symm hj)
      · exact h.2.1 i hi

/-- Toggling a cell of the screen keeps the canonical form. -/
theorem wf_toggle (fb : Screen) (k : Nat) (hk : k < Config.fbCells) (h : Screen.wf fb = true) :
    Screen.wf (Screen.toggle fb k) = true := by
  by_cases hm : k ∈ fb
  · simpa [Screen.toggle, cell_eq, hm] using wf_screen_filter fb (fun j => j != k) h
  · simpa [Screen.toggle, cell_eq, hm] using wf_screen_insert fb k hk hm h

/-- A cell on the screen has an index below 2048 (R44). -/
theorem cellIndex_lt {x y : Nat} (hx : x < Config.fbWidth) (hy : y < Config.fbHeight) :
    cellIndex x y < Config.fbCells := by
  simp only [cellIndex, Config.fbCells, Config.fbWidth, Config.fbHeight] at *
  omega

/-- Two cells on the screen with one index are one cell. -/
theorem cellIndex_inj {x y x' y' : Nat} (hx : x < Config.fbWidth) (hx' : x' < Config.fbWidth)
    (h : cellIndex x y = cellIndex x' y') : x = x' ∧ y = y' := by
  simp only [cellIndex, Config.fbWidth] at *
  omega

end Sys2Proof.Machine
end

