-- ==== Sys2Proof/Laws/State.lean ====
section
/-! SUPPORT. One lemma per field per update of the state, true by unfolding once, and reading a register after writing
one. No later proof unfolds a record update. -/

namespace Sys2Proof.Machine

@[simp] theorem writeV_i (s : State) (x : Reg) (b : Byte) : (writeV s x b).i = s.i := rfl
@[simp] theorem writeV_pc (s : State) (x : Reg) (b : Byte) : (writeV s x b).pc = s.pc := rfl
@[simp] theorem writeV_sp (s : State) (x : Reg) (b : Byte) : (writeV s x b).sp = s.sp := rfl
@[simp] theorem writeV_stack (s : State) (x : Reg) (b : Byte) : (writeV s x b).stack = s.stack := rfl
@[simp] theorem writeV_mem (s : State) (x : Reg) (b : Byte) : (writeV s x b).mem = s.mem := rfl
@[simp] theorem writeV_fb (s : State) (x : Reg) (b : Byte) : (writeV s x b).fb = s.fb := rfl
@[simp] theorem writeV_key (s : State) (x : Reg) (b : Byte) : (writeV s x b).key = s.key := rfl
@[simp] theorem writeV_dt (s : State) (x : Reg) (b : Byte) : (writeV s x b).dt = s.dt := rfl
@[simp] theorem writeV_st (s : State) (x : Reg) (b : Byte) : (writeV s x b).st = s.st := rfl
@[simp] theorem writeV_halt (s : State) (x : Reg) (b : Byte) : (writeV s x b).halt = s.halt := rfl
@[simp] theorem writeV_haltCause (s : State) (x : Reg) (b : Byte) : (writeV s x b).haltCause = s.haltCause := rfl
@[simp] theorem writeV_haltInfo (s : State) (x : Reg) (b : Byte) : (writeV s x b).haltInfo = s.haltInfo := rfl
@[simp] theorem writeV_draws (s : State) (x : Reg) (b : Byte) : (writeV s x b).draws = s.draws := rfl
@[simp] theorem writeV_v (s : State) (x : Reg) (b : Byte) : (writeV s x b).v = s.v.set x b := rfl

@[simp] theorem writeFlag_i (s : State) (b : Bool) : (writeFlag s b).i = s.i := rfl
@[simp] theorem writeFlag_pc (s : State) (b : Bool) : (writeFlag s b).pc = s.pc := rfl
@[simp] theorem writeFlag_sp (s : State) (b : Bool) : (writeFlag s b).sp = s.sp := rfl
@[simp] theorem writeFlag_stack (s : State) (b : Bool) : (writeFlag s b).stack = s.stack := rfl
@[simp] theorem writeFlag_mem (s : State) (b : Bool) : (writeFlag s b).mem = s.mem := rfl
@[simp] theorem writeFlag_fb (s : State) (b : Bool) : (writeFlag s b).fb = s.fb := rfl
@[simp] theorem writeFlag_key (s : State) (b : Bool) : (writeFlag s b).key = s.key := rfl
@[simp] theorem writeFlag_dt (s : State) (b : Bool) : (writeFlag s b).dt = s.dt := rfl
@[simp] theorem writeFlag_st (s : State) (b : Bool) : (writeFlag s b).st = s.st := rfl
@[simp] theorem writeFlag_halt (s : State) (b : Bool) : (writeFlag s b).halt = s.halt := rfl
@[simp] theorem writeFlag_haltCause (s : State) (b : Bool) : (writeFlag s b).haltCause = s.haltCause := rfl
@[simp] theorem writeFlag_haltInfo (s : State) (b : Bool) : (writeFlag s b).haltInfo = s.haltInfo := rfl
@[simp] theorem writeFlag_draws (s : State) (b : Bool) : (writeFlag s b).draws = s.draws := rfl
@[simp] theorem writeFlag_v (s : State) (b : Bool) : (writeFlag s b).v = s.v.set vf (flagByte b) := rfl

@[simp] theorem setI_v (w : Word) (s : State) : (setI w s).v = s.v := rfl
@[simp] theorem setI_pc (w : Word) (s : State) : (setI w s).pc = s.pc := rfl
@[simp] theorem setI_sp (w : Word) (s : State) : (setI w s).sp = s.sp := rfl
@[simp] theorem setI_stack (w : Word) (s : State) : (setI w s).stack = s.stack := rfl
@[simp] theorem setI_mem (w : Word) (s : State) : (setI w s).mem = s.mem := rfl
@[simp] theorem setI_fb (w : Word) (s : State) : (setI w s).fb = s.fb := rfl
@[simp] theorem setI_key (w : Word) (s : State) : (setI w s).key = s.key := rfl
@[simp] theorem setI_dt (w : Word) (s : State) : (setI w s).dt = s.dt := rfl
@[simp] theorem setI_st (w : Word) (s : State) : (setI w s).st = s.st := rfl
@[simp] theorem setI_halt (w : Word) (s : State) : (setI w s).halt = s.halt := rfl
@[simp] theorem setI_haltCause (w : Word) (s : State) : (setI w s).haltCause = s.haltCause := rfl
@[simp] theorem setI_haltInfo (w : Word) (s : State) : (setI w s).haltInfo = s.haltInfo := rfl
@[simp] theorem setI_draws (w : Word) (s : State) : (setI w s).draws = s.draws := rfl
@[simp] theorem setI_i (w : Word) (s : State) : (setI w s).i = w := rfl
@[simp] theorem readV_setI (w : Word) (s : State) (k : Reg) : readV (setI w s) k = readV s k := rfl

@[simp] theorem toggleCell_v (k : Nat) (s : State) : (toggleCell k s).v = s.v := rfl
@[simp] theorem toggleCell_i (k : Nat) (s : State) : (toggleCell k s).i = s.i := rfl
@[simp] theorem toggleCell_pc (k : Nat) (s : State) : (toggleCell k s).pc = s.pc := rfl
@[simp] theorem toggleCell_sp (k : Nat) (s : State) : (toggleCell k s).sp = s.sp := rfl
@[simp] theorem toggleCell_stack (k : Nat) (s : State) : (toggleCell k s).stack = s.stack := rfl
@[simp] theorem toggleCell_mem (k : Nat) (s : State) : (toggleCell k s).mem = s.mem := rfl
@[simp] theorem toggleCell_key (k : Nat) (s : State) : (toggleCell k s).key = s.key := rfl
@[simp] theorem toggleCell_dt (k : Nat) (s : State) : (toggleCell k s).dt = s.dt := rfl
@[simp] theorem toggleCell_st (k : Nat) (s : State) : (toggleCell k s).st = s.st := rfl
@[simp] theorem toggleCell_halt (k : Nat) (s : State) : (toggleCell k s).halt = s.halt := rfl
@[simp] theorem toggleCell_haltCause (k : Nat) (s : State) : (toggleCell k s).haltCause = s.haltCause := rfl
@[simp] theorem toggleCell_haltInfo (k : Nat) (s : State) : (toggleCell k s).haltInfo = s.haltInfo := rfl
@[simp] theorem toggleCell_draws (k : Nat) (s : State) : (toggleCell k s).draws = s.draws := rfl
@[simp] theorem toggleCell_fb (k : Nat) (s : State) : (toggleCell k s).fb = Screen.toggle s.fb k := rfl
@[simp] theorem readV_toggleCell (k : Nat) (s : State) (j : Reg) : readV (toggleCell k s) j = readV s j := rfl

@[simp] theorem raiseFatal_v (f : Fatal) (s : State) : (raiseFatal f s).v = s.v := rfl
@[simp] theorem raiseFatal_i (f : Fatal) (s : State) : (raiseFatal f s).i = s.i := rfl
@[simp] theorem raiseFatal_pc (f : Fatal) (s : State) : (raiseFatal f s).pc = s.pc := rfl
@[simp] theorem raiseFatal_sp (f : Fatal) (s : State) : (raiseFatal f s).sp = s.sp := rfl
@[simp] theorem raiseFatal_stack (f : Fatal) (s : State) : (raiseFatal f s).stack = s.stack := rfl
@[simp] theorem raiseFatal_mem (f : Fatal) (s : State) : (raiseFatal f s).mem = s.mem := rfl
@[simp] theorem raiseFatal_fb (f : Fatal) (s : State) : (raiseFatal f s).fb = s.fb := rfl
@[simp] theorem raiseFatal_key (f : Fatal) (s : State) : (raiseFatal f s).key = s.key := rfl
@[simp] theorem raiseFatal_dt (f : Fatal) (s : State) : (raiseFatal f s).dt = s.dt := rfl
@[simp] theorem raiseFatal_st (f : Fatal) (s : State) : (raiseFatal f s).st = s.st := rfl
@[simp] theorem raiseFatal_draws (f : Fatal) (s : State) : (raiseFatal f s).draws = s.draws := rfl
@[simp] theorem raiseFatal_halt (f : Fatal) (s : State) : (raiseFatal f s).halt = true := rfl
@[simp] theorem raiseFatal_haltCause (f : Fatal) (s : State) : (raiseFatal f s).haltCause = f.cause := rfl
@[simp] theorem raiseFatal_haltInfo (f : Fatal) (s : State) : (raiseFatal f s).haltInfo = f.info := rfl
@[simp] theorem readV_raiseFatal (f : Fatal) (s : State) (k : Reg) : readV (raiseFatal f s) k = readV s k := rfl

@[simp] theorem advancePc_v (s : State) : (advancePc s).v = s.v := rfl
@[simp] theorem advancePc_i (s : State) : (advancePc s).i = s.i := rfl
@[simp] theorem advancePc_sp (s : State) : (advancePc s).sp = s.sp := rfl
@[simp] theorem advancePc_stack (s : State) : (advancePc s).stack = s.stack := rfl
@[simp] theorem advancePc_mem (s : State) : (advancePc s).mem = s.mem := rfl
@[simp] theorem advancePc_fb (s : State) : (advancePc s).fb = s.fb := rfl
@[simp] theorem advancePc_key (s : State) : (advancePc s).key = s.key := rfl
@[simp] theorem advancePc_dt (s : State) : (advancePc s).dt = s.dt := rfl
@[simp] theorem advancePc_st (s : State) : (advancePc s).st = s.st := rfl
@[simp] theorem advancePc_halt (s : State) : (advancePc s).halt = s.halt := rfl
@[simp] theorem advancePc_haltCause (s : State) : (advancePc s).haltCause = s.haltCause := rfl
@[simp] theorem advancePc_haltInfo (s : State) : (advancePc s).haltInfo = s.haltInfo := rfl
@[simp] theorem advancePc_draws (s : State) : (advancePc s).draws = s.draws := rfl
@[simp] theorem advancePc_pc (s : State) : (advancePc s).pc = s.pc + 2 := rfl
@[simp] theorem readV_advancePc (s : State) (k : Reg) : readV (advancePc s) k = readV s k := rfl

@[simp] theorem jumpTo_v (w : Word) (s : State) : (jumpTo w s).v = s.v := rfl
@[simp] theorem jumpTo_i (w : Word) (s : State) : (jumpTo w s).i = s.i := rfl
@[simp] theorem jumpTo_sp (w : Word) (s : State) : (jumpTo w s).sp = s.sp := rfl
@[simp] theorem jumpTo_stack (w : Word) (s : State) : (jumpTo w s).stack = s.stack := rfl
@[simp] theorem jumpTo_mem (w : Word) (s : State) : (jumpTo w s).mem = s.mem := rfl
@[simp] theorem jumpTo_fb (w : Word) (s : State) : (jumpTo w s).fb = s.fb := rfl
@[simp] theorem jumpTo_key (w : Word) (s : State) : (jumpTo w s).key = s.key := rfl
@[simp] theorem jumpTo_dt (w : Word) (s : State) : (jumpTo w s).dt = s.dt := rfl
@[simp] theorem jumpTo_st (w : Word) (s : State) : (jumpTo w s).st = s.st := rfl
@[simp] theorem jumpTo_halt (w : Word) (s : State) : (jumpTo w s).halt = s.halt := rfl
@[simp] theorem jumpTo_haltCause (w : Word) (s : State) : (jumpTo w s).haltCause = s.haltCause := rfl
@[simp] theorem jumpTo_haltInfo (w : Word) (s : State) : (jumpTo w s).haltInfo = s.haltInfo := rfl
@[simp] theorem jumpTo_draws (w : Word) (s : State) : (jumpTo w s).draws = s.draws := rfl
@[simp] theorem jumpTo_pc (w : Word) (s : State) : (jumpTo w s).pc = w := rfl
@[simp] theorem readV_jumpTo (w : Word) (s : State) (k : Reg) : readV (jumpTo w s) k = readV s k := rfl

@[simp] theorem clearScreen_v (s : State) : (clearScreen s).v = s.v := rfl
@[simp] theorem clearScreen_i (s : State) : (clearScreen s).i = s.i := rfl
@[simp] theorem clearScreen_pc (s : State) : (clearScreen s).pc = s.pc := rfl
@[simp] theorem clearScreen_sp (s : State) : (clearScreen s).sp = s.sp := rfl
@[simp] theorem clearScreen_stack (s : State) : (clearScreen s).stack = s.stack := rfl
@[simp] theorem clearScreen_mem (s : State) : (clearScreen s).mem = s.mem := rfl
@[simp] theorem clearScreen_key (s : State) : (clearScreen s).key = s.key := rfl
@[simp] theorem clearScreen_dt (s : State) : (clearScreen s).dt = s.dt := rfl
@[simp] theorem clearScreen_st (s : State) : (clearScreen s).st = s.st := rfl
@[simp] theorem clearScreen_halt (s : State) : (clearScreen s).halt = s.halt := rfl
@[simp] theorem clearScreen_haltCause (s : State) : (clearScreen s).haltCause = s.haltCause := rfl
@[simp] theorem clearScreen_haltInfo (s : State) : (clearScreen s).haltInfo = s.haltInfo := rfl
@[simp] theorem clearScreen_draws (s : State) : (clearScreen s).draws = s.draws := rfl
@[simp] theorem clearScreen_fb (s : State) : (clearScreen s).fb = [] := rfl
@[simp] theorem readV_clearScreen (s : State) (k : Reg) : readV (clearScreen s) k = readV s k := rfl

@[simp] theorem takeDraw_v (s : State) : (takeDraw s).v = s.v := rfl
@[simp] theorem takeDraw_i (s : State) : (takeDraw s).i = s.i := rfl
@[simp] theorem takeDraw_pc (s : State) : (takeDraw s).pc = s.pc := rfl
@[simp] theorem takeDraw_sp (s : State) : (takeDraw s).sp = s.sp := rfl
@[simp] theorem takeDraw_stack (s : State) : (takeDraw s).stack = s.stack := rfl
@[simp] theorem takeDraw_mem (s : State) : (takeDraw s).mem = s.mem := rfl
@[simp] theorem takeDraw_fb (s : State) : (takeDraw s).fb = s.fb := rfl
@[simp] theorem takeDraw_key (s : State) : (takeDraw s).key = s.key := rfl
@[simp] theorem takeDraw_dt (s : State) : (takeDraw s).dt = s.dt := rfl
@[simp] theorem takeDraw_st (s : State) : (takeDraw s).st = s.st := rfl
@[simp] theorem takeDraw_halt (s : State) : (takeDraw s).halt = s.halt := rfl
@[simp] theorem takeDraw_haltCause (s : State) : (takeDraw s).haltCause = s.haltCause := rfl
@[simp] theorem takeDraw_haltInfo (s : State) : (takeDraw s).haltInfo = s.haltInfo := rfl
@[simp] theorem takeDraw_draws (s : State) : (takeDraw s).draws = s.draws + 1 := rfl
@[simp] theorem readV_takeDraw (s : State) (k : Reg) : readV (takeDraw s) k = readV s k := rfl

/-- Reading a register after writing one. -/
@[simp] theorem readV_writeV (s : State) (x k : Reg) (b : Byte) :
    readV (writeV s x b) k = if k = x then b else readV s k := by
  simp only [readV, writeV, Fin.getElem_fin, Vector.getElem_set, Fin.val_inj, eq_comm (a := x)]

/-- Reading a register after writing the flag. -/
@[simp] theorem readV_writeFlag (s : State) (k : Reg) (b : Bool) :
    readV (writeFlag s b) k = if k = vf then flagByte b else readV s k := readV_writeV s vf k (flagByte b)

theorem readV_writeV_same (s : State) (x : Reg) (b : Byte) : readV (writeV s x b) x = b := by simp

theorem readV_writeV_other (s : State) {x k : Reg} (b : Byte) (h : k ≠ x) :
    readV (writeV s x b) k = readV s k := by simp [h]

theorem frame_refl (regs : List Reg) (parts : List Part) (s : State) : Frame regs parts s s :=
  ⟨fun _ _ => rfl, fun p _ => by cases p <;> simp [Part.same]⟩

/-- Writing one register changes nothing else. -/
theorem writeV_frame (s : State) (x : Reg) (b : Byte) : Frame [x] [] s (writeV s x b) :=
  ⟨fun k hk => readV_writeV_other s b (by simpa using hk), fun p _ => by cases p <;> simp [Part.same, latchOf]⟩

/-- Frames compose. -/
theorem Frame.trans {r : List Reg} {p : List Part} {s t u : State} (h : Frame r p s t) (g : Frame r p t u) :
    Frame r p s u := by
  refine ⟨fun k hk => (g.1 k hk).trans (h.1 k hk), fun q hq => ?_⟩
  have a := h.2 q hq
  have b := g.2 q hq
  cases q <;> simp only [Part.same] at a b ⊢
  case mem => exact fun x => (b x).trans (a x)
  case fb => exact fun x => (b x).trans (a x)
  all_goals exact b.trans a

/-- A frame that names more still holds. -/
theorem Frame.mono {r r' : List Reg} {p p' : List Part} {s t : State} (h : Frame r p s t) (hr : r ⊆ r') (hp : p ⊆ p') :
    Frame r' p' s t :=
  ⟨fun k hk => h.1 k fun m => hk (hr m), fun q hq => h.2 q fun m => hq (hp m)⟩

end Sys2Proof.Machine
end

