-- ==== Sys2Proof/Laws/Ops.lean ====
section
/-! SUPPORT. One specification lemma per shared operation: what it answers, in full. -/

namespace Sys2Proof.Machine

theorem memRead_inside {addr : Nat} (h : addr ≤ 4095) (s : State) : memRead addr s = .ok (Memory.read s.mem addr) := by
  simp [memRead, Nat.not_lt.mpr h]

theorem memRead_outside {addr : Nat} (h : 4095 < addr) (s : State) :
    memRead addr s = .error ⟨.memOob, BitVec.ofNat 16 addr⟩ := by
  simp [memRead, h]

/-- A word can be read exactly if both its bytes are in memory. -/
theorem memReadWord_inside {addr : Nat} (h : addr ≤ 4094) (s : State) :
    memReadWord addr s = .ok (joinBytes (Memory.read s.mem addr) (Memory.read s.mem (addr + 1))) := by
  simp [memReadWord, memRead_inside (show addr ≤ 4095 by omega), memRead_inside (show addr + 1 ≤ 4095 by omega)]

/-- The error of a word read names the first address out of range (R33). -/
theorem memReadWord_outside {addr : Nat} (h : 4094 < addr) (s : State) :
    memReadWord addr s = .error ⟨.memOob, BitVec.ofNat 16 (max addr 4096)⟩ := by
  by_cases h1 : addr = 4095
  · subst h1
    simp [memReadWord, memRead_inside, memRead_outside]
  · simp [memReadWord, memRead_outside (show 4095 < addr by omega), show max addr 4096 = addr by omega]

/-- The fetch succeeds exactly when PC <= 0xFFE (R72). -/
theorem fetch_inside {s : State} (h : s.pc.toNat ≤ 0xFFE) :
    fetch s =
      .ok (joinBytes (Memory.read s.mem s.pc.toNat) (Memory.read s.mem (s.pc.toNat + 1)), advancePc s) := by
  simp [fetch, memReadWord_inside h]

theorem fetch_outside {s : State} (h : 0xFFE < s.pc.toNat) :
    fetch s = .error ⟨.memOob, BitVec.ofNat 16 (max s.pc.toNat 4096)⟩ := by
  simp [fetch, memReadWord_outside h]

/-- Everything the push can do. -/
theorem pushPc_cases (s : State) :
    (s.sp.val = 16 ∧ pushPc s = .error ⟨.stackOverflow, 16⟩) ∨
    ∃ h : s.sp.val < 16,
      pushPc s = .ok { s with stack := s.stack.set s.sp.val s.pc h, sp := ⟨s.sp.val + 1, by omega⟩ } := by
  by_cases h : s.sp.val < 16
  · exact .inr ⟨h, by simp [pushPc, Config.stackDepth, h]⟩
  · exact .inl ⟨by omega, by simp [pushPc, Config.stackDepth, h]⟩

/-- Everything the pop can do. -/
theorem popPc_cases (s : State) :
    (s.sp.val = 0 ∧ popPc s = .error ⟨.stackUnderflow, 0⟩) ∨
    ∃ (n : Nat) (h : n < 16), s.sp.val = n + 1 ∧
      popPc s = .ok { s with sp := ⟨n, by omega⟩, pc := s.stack[n] } := by
  cases hs : s.sp with
  | mk n hn =>
    cases n with
    | zero => exact .inl ⟨rfl, by simp [popPc, hs]⟩
    | succ n => exact .inr ⟨n, by omega, rfl, by simp [popPc, hs]⟩

/-- Everything RET can do (R81). -/
theorem ret_cases (s : State) :
    (s.sp.val = 0 ∧ orFatal s (popPc s) = raiseFatal ⟨.stackUnderflow, 0⟩ s) ∨
    ∃ (n : Nat) (h : n < 16), s.sp.val = n + 1 ∧
      orFatal s (popPc s) = { s with sp := ⟨n, by omega⟩, pc := s.stack[n] } := by
  rcases popPc_cases s with ⟨h, e⟩ | ⟨n, h, hs, e⟩
  · exact .inl ⟨h, by rw [e]; rfl⟩
  · exact .inr ⟨n, h, hs, by rw [e]; rfl⟩

/-- Everything CALL can do (R83). -/
theorem call_cases (target : Word) (s : State) :
    (s.sp.val = 16 ∧ orFatal s ((pushPc s).map (jumpTo target)) = raiseFatal ⟨.stackOverflow, 16⟩ s) ∨
    ∃ h : s.sp.val < 16,
      orFatal s ((pushPc s).map (jumpTo target)) =
        { s with stack := s.stack.set s.sp.val s.pc h, sp := ⟨s.sp.val + 1, by omega⟩, pc := target } := by
  rcases pushPc_cases s with ⟨h, e⟩ | ⟨h, e⟩
  · exact .inl ⟨h, by rw [e]; rfl⟩
  · exact .inr ⟨h, by rw [e]; rfl⟩

/-- A skip changes nothing but PC. -/
theorem skipIf_frame (c : Bool) (s : State) : Frame [] [.pc] s (skipIf c s) := by
  cases c
  · exact frame_refl _ _ s
  · exact ⟨fun k _ => rfl, fun p hp => by cases p <;> simp_all [skipIf, Part.same, latchOf]⟩

/-- A hit changes nothing but VF and the framebuffer. -/
theorem hitCell_frame (k : Nat) (s : State) : Frame [vf] [.fb] s (hitCell k s) := by
  unfold hitCell
  split
  · exact ⟨fun j hj => by simp_all, fun p hp => by cases p <;> simp_all [Part.same, latchOf]⟩
  · exact ⟨fun j hj => rfl, fun p hp => by cases p <;> simp_all [Part.same, latchOf]⟩

/-- A hit flips its cell and no other. -/
@[simp] theorem hitCell_cell (k j : Nat) (s : State) :
    Screen.cell (hitCell k s).fb j = if j = k then !Screen.cell s.fb k else Screen.cell s.fb j := by
  unfold hitCell
  split <;> simp

/-- A hit sets VF if its cell was on, and else leaves it. -/
@[simp] theorem hitCell_vf (k : Nat) (s : State) :
    readV (hitCell k s) vf = if Screen.cell s.fb k then 1 else readV s vf := by
  unfold hitCell
  split <;> simp [flagByte, *]

@[simp] theorem hitCell_mem (k : Nat) (s : State) : (hitCell k s).mem = s.mem := by unfold hitCell; split <;> simp

/-- Everything one sprite pixel can do: nothing, or hit one cell of the screen. -/
theorem drawPixel_cases (x y : Reg) (r : Nat) (sprite : Byte) (s : State) (c : Nat) :
    drawPixel x y r sprite s c = s ∨
    (sprite.getLsbD (7 - c) = true ∧ (readV s x).toNat + c < Config.fbWidth ∧
      (readV s y).toNat + r < Config.fbHeight ∧
      drawPixel x y r sprite s c = hitCell (cellIndex ((readV s x).toNat + c) ((readV s y).toNat + r)) s) := by
  unfold drawPixel
  dsimp only
  split
  next hb =>
    split
    · exact .inl rfl
    next h =>
      simp only [ge_iff_le, not_or, Nat.not_le] at h
      exact .inr ⟨hb, h.1, h.2, rfl⟩
  · exact .inl rfl

/-- One pixel changes nothing but VF and the framebuffer. -/
theorem drawPixel_frame (x y : Reg) (r : Nat) (sprite : Byte) (s : State) (c : Nat) :
    Frame [vf] [.fb] s (drawPixel x y r sprite s c) := by
  rcases drawPixel_cases x y r sprite s c with h | ⟨-, -, -, h⟩
  · rw [h]; exact frame_refl _ _ s
  · rw [h]; exact hitCell_frame _ s

/-- One pixel keeps the framebuffer's canonical form. -/
theorem drawPixel_wf (x y : Reg) (r : Nat) (sprite : Byte) (s : State) (c : Nat) (h : Screen.wf s.fb = true) :
    Screen.wf (drawPixel x y r sprite s c).fb = true := by
  rcases drawPixel_cases x y r sprite s c with e | ⟨-, hx, hy, e⟩
  · rwa [e]
  · rw [e]
    unfold hitCell
    split
    · exact wf_toggle s.fb _ (cellIndex_lt hx hy) h
    · exact wf_toggle s.fb _ (cellIndex_lt hx hy) h

/-- A property every pixel keeps, a row keeps. -/
theorem drawRow_induction {P : State → Prop} (x y : Reg) (r : Nat) (sprite : Byte)
    (hp : ∀ s c, P s → P (drawPixel x y r sprite s c)) (s : State) (h : P s) : P (drawRow x y r sprite s) := by
  unfold drawRow
  generalize List.range 8 = l
  induction l generalizing s with
  | nil => exact h
  | cons c rest ih => exact ih _ (hp s c h)

theorem drawRow_frame (x y : Reg) (r : Nat) (sprite : Byte) (s : State) :
    Frame [vf] [.fb] s (drawRow x y r sprite s) :=
  drawRow_induction (P := fun t => Frame [vf] [.fb] s t) x y r sprite
    (fun t c h => h.trans (drawPixel_frame x y r sprite t c)) s (frame_refl _ _ s)

theorem drawRow_wf (x y : Reg) (r : Nat) (sprite : Byte) (s : State) (h : Screen.wf s.fb = true) :
    Screen.wf (drawRow x y r sprite s).fb = true :=
  drawRow_induction (P := fun t => Screen.wf t.fb = true) x y r sprite
    (fun t c => drawPixel_wf x y r sprite t c) s h

@[simp] theorem drawRow_mem (x y : Reg) (r : Nat) (sprite : Byte) (s : State) :
    (drawRow x y r sprite s).mem = s.mem :=
  drawRow_induction (P := fun t => t.mem = s.mem) x y r sprite
    (fun t c h => by rcases drawPixel_cases x y r sprite t c with e | ⟨-, -, -, e⟩ <;> simp [e, h]) s rfl

/-- Raising a fatal error changes nothing but the latch. -/
theorem raiseFatal_frame (f : Fatal) (s : State) : Frame [] [.latch] s (raiseFatal f s) :=
  ⟨fun k _ => rfl, fun p hp => by cases p <;> simp_all [Part.same]⟩

/-- Drawing rows changes nothing but VF, the framebuffer and, at a row out of memory, the latch. -/
theorem drawRows_frame (x y : Reg) (left r : Nat) (s : State) : Frame [vf] [.fb, .latch] s (drawRows x y left r s) := by
  induction left generalizing r s with
  | zero => exact frame_refl _ _ s
  | succ left ih =>
    unfold drawRows
    split
    · exact (raiseFatal_frame _ s).mono (by simp) (by simp)
    · exact ((drawRow_frame x y r _ s).mono (by simp) (by simp)).trans (ih _ _)

/-- Drawing rows that are all in memory raises nothing. -/
theorem drawRows_inside (x y : Reg) (left r : Nat) (s : State) (h : s.i.toNat + r + left ≤ 4096) :
    Frame [vf] [.fb] s (drawRows x y left r s) := by
  induction left generalizing r s with
  | zero => exact frame_refl _ _ s
  | succ left ih =>
    have hf := drawRow_frame x y r (Memory.read s.mem (s.i.toNat + r)) s
    have hi : (drawRow x y r (Memory.read s.mem (s.i.toNat + r)) s).i = s.i := hf.2 .i (by simp)
    simp only [drawRows, memRead_inside (show s.i.toNat + r ≤ 4095 by omega)]
    exact hf.trans (ih _ _ (by rw [hi]; omega))

@[simp] theorem drawRows_mem (x y : Reg) (left r : Nat) (s : State) : (drawRows x y left r s).mem = s.mem := by
  induction left generalizing r s with
  | zero => rfl
  | succ left ih => unfold drawRows; split <;> simp [ih]

/-- Drawing rows sets the latch exactly if a row lies past the end of memory, naming the first such address. -/
theorem drawRows_latch (x y : Reg) (left r : Nat) (s : State) :
    ((s.i.toNat + r + left ≤ 4096 ∨ left = 0) ∧ latchOf (drawRows x y left r s) = latchOf s) ∨
    (4096 < s.i.toNat + r + left ∧ left ≠ 0 ∧
      latchOf (drawRows x y left r s) = (true, .memOob, BitVec.ofNat 16 (max (s.i.toNat + r) 4096))) := by
  induction left generalizing r s with
  | zero => simp [drawRows]
  | succ left ih =>
    by_cases hr : s.i.toNat + r ≤ 4095
    · simp only [drawRows, memRead_inside hr]
      have hf := drawRow_frame x y r (Memory.read s.mem (s.i.toNat + r)) s
      have hi : (drawRow x y r (Memory.read s.mem (s.i.toNat + r)) s).i = s.i := hf.2 .i (by simp)
      have hl := hf.2 .latch (by simp)
      rcases ih (r + 1) (drawRow x y r (Memory.read s.mem (s.i.toNat + r)) s) with ⟨h1, h2⟩ | ⟨h1, h2, h3⟩
      · rw [hi] at h1
        exact .inl ⟨.inl (by omega), h2.trans hl⟩
      · rw [hi] at h1 h3
        exact .inr ⟨by omega, by omega, by rw [h3]; congr 3; omega⟩
    · simp only [drawRows, memRead_outside (show 4095 < s.i.toNat + r by omega)]
      refine .inr ⟨by omega, by omega, ?_⟩
      simp only [latchOf, raiseFatal_halt, raiseFatal_haltCause, raiseFatal_haltInfo]
      congr 3
      omega

theorem drawRows_wf (x y : Reg) (left r : Nat) (s : State) (h : Screen.wf s.fb = true) :
    Screen.wf (drawRows x y left r s).fb = true := by
  induction left generalizing r s with
  | zero => exact h
  | succ left ih =>
    unfold drawRows
    split
    · exact h
    · exact ih _ _ (drawRow_wf x y r _ s h)

end Sys2Proof.Machine
end

