-- ==== Sys2Proof/Laws/PerInstr.lean ====
section
/-! SUPPORT. Statements about every instruction as syntax, one lemma per constructor. -/

namespace Sys2Proof.Laws.MatchesRow

/-- The encoder's word selects the row of R54's table the instruction belongs to: `op and mask == pattern`. -/
def Statement (i : Instr) : Prop := encode i &&& i.row.mask = i.row.pattern

/-- The mask 0xF000 keeps nibble1. -/
theorem mask_major (a b c d : Nibble) : ofNibbles a b c d &&& 0xF000#16 = ofNibbles a 0 0 0 := by
  simp only [ofNibbles]
  refine BitVec.eq_of_getLsbD_eq fun i hi => ?_
  interval_cases i <;> (simp only [BitVec.getLsbD_and, BitVec.getLsbD_append]; simp)

/-- The mask 0xF00F keeps nibble1 and nibble4. -/
theorem mask_minor (a b c d : Nibble) : ofNibbles a b c d &&& 0xF00F#16 = ofNibbles a 0 0 d := by
  simp only [ofNibbles]
  refine BitVec.eq_of_getLsbD_eq fun i hi => ?_
  interval_cases i <;> (simp only [BitVec.getLsbD_and, BitVec.getLsbD_append]; simp)

theorem nop : Statement .nop := by unfold Statement; decide
theorem cls : Statement .cls := by unfold Statement; decide
theorem ret : Statement .ret := by unfold Statement; decide
theorem jp (nnn : Addr) : Statement (.jp nnn) := mask_major ..
theorem call (nnn : Addr) : Statement (.call nnn) := mask_major ..
theorem seImm (x : Reg) (nn : Byte) : Statement (.seImm x nn) := mask_major ..
theorem sneImm (x : Reg) (nn : Byte) : Statement (.sneImm x nn) := mask_major ..
theorem seReg (x y : Reg) : Statement (.seReg x y) := mask_minor ..
theorem ldImm (x : Reg) (nn : Byte) : Statement (.ldImm x nn) := mask_major ..
theorem addImm (x : Reg) (nn : Byte) : Statement (.addImm x nn) := mask_major ..
theorem ldReg (x y : Reg) : Statement (.ldReg x y) := mask_minor ..
theorem orReg (x y : Reg) : Statement (.orReg x y) := mask_minor ..
theorem andReg (x y : Reg) : Statement (.andReg x y) := mask_minor ..
theorem xorReg (x y : Reg) : Statement (.xorReg x y) := mask_minor ..
theorem addReg (x y : Reg) : Statement (.addReg x y) := mask_minor ..
theorem sub (x y : Reg) : Statement (.sub x y) := mask_minor ..
theorem shr (x y : Reg) : Statement (.shr x y) := mask_minor ..
theorem subn (x y : Reg) : Statement (.subn x y) := mask_minor ..
theorem shl (x y : Reg) : Statement (.shl x y) := mask_minor ..
theorem sneReg (x y : Reg) : Statement (.sneReg x y) := mask_minor ..
theorem ldI (nnn : Addr) : Statement (.ldI nnn) := mask_major ..
theorem rnd (x : Reg) (nn : Byte) : Statement (.rnd x nn) := mask_major ..
theorem drw (x y n : Fin 16) : Statement (.drw x y n) := mask_major ..

end Sys2Proof.Laws.MatchesRow
end

