-- ==== Sys2Proof/Laws/Step.lean ====
section
/-! SUPPORT. Everything a step can do, and that placing a word keeps the memory's canonical form. -/

namespace Sys2Proof.Machine

/-- Everything `step` can do: nothing while halted, a fetch that faults, an unrecognized word, or one instruction. -/
theorem step_cases (s : State) :
    (s.halt = true ∧ step s = .next s) ∨
    (s.halt = false ∧ 0xFFE < s.pc.toNat ∧
      step s = .next (raiseFatal ⟨.memOob, BitVec.ofNat 16 (max s.pc.toNat 4096)⟩ s)) ∨
    (s.halt = false ∧ s.pc.toNat ≤ 0xFFE ∧
      ((∃ e, decodeWord (joinBytes (Memory.read s.mem s.pc.toNat) (Memory.read s.mem (s.pc.toNat + 1))) = .error e ∧
          step s = .next (advancePc s)) ∨
        ∃ i, decodeWord (joinBytes (Memory.read s.mem s.pc.toNat) (Memory.read s.mem (s.pc.toNat + 1))) = .ok i ∧
          step s = exec i (advancePc s))) := by
  by_cases hh : s.halt = true
  · exact .inl ⟨hh, by simp [step, tick, hh]⟩
  · have hh : s.halt = false := by simpa using hh
    by_cases hp : s.pc.toNat ≤ 0xFFE
    · refine .inr (.inr ⟨hh, hp, ?_⟩)
      simp only [step, tick, hh, fetch_inside hp, execute, execUnrecognized, Bool.false_eq_true, if_false]
      split
      next i hi => exact .inr ⟨i, hi, by simp⟩
      next e he => exact .inl ⟨e, he, by simp⟩
    · have hp : 0xFFE < s.pc.toNat := by omega
      exact .inr (.inl ⟨hh, hp, by simp [step, tick, hh, fetch_outside hp]⟩)

/-- Placing a word for the next fetch keeps the memory's canonical form. -/
theorem wf_placeWord (s : State) (w : Word) (h : Memory.wf s.mem = true) : Memory.wf (placeWord s w).mem = true := by
  unfold placeWord
  split
  · exact wf_writeBytes _ _ _ (by simp [wordBytes, Config.memSize]; omega) h
  · exact h

/-- Everything `load_program` can do (R151, R152). -/
theorem loadProgram_cases (bytes : List Byte) (s : State) :
    (s.halt = true ∧ loadProgram bytes s = s) ∨
    (s.halt = false ∧ 4096 < 0x200 + bytes.length ∧ loadProgram bytes s = raiseFatal ⟨.romTooLarge, 0⟩ s) ∨
    (s.halt = false ∧ 0x200 + bytes.length ≤ 4096 ∧
      loadProgram bytes s = { s with mem := Memory.writeBytes s.mem 0x200 bytes }) := by
  by_cases hh : s.halt = true
  · exact .inl ⟨hh, by simp [loadProgram, hh]⟩
  · have hh : s.halt = false := by simpa using hh
    by_cases hl : 4096 < 0x200 + bytes.length
    · exact .inr (.inl ⟨hh, hl, by simp only [loadProgram, hh, gt_iff_lt, hl, if_true]; rfl⟩)
    · exact .inr (.inr ⟨hh, by omega, by simp only [loadProgram, hh, gt_iff_lt, hl, if_false]; rfl⟩)

/-- Memory after a program that fits is loaded: its bytes from 0x200 up, every other byte as before (R151). -/
theorem loadProgram_read (bytes : List Byte) (s : State) (hs : s.halt = false) (hl : 0x200 + bytes.length ≤ 4096)
    (a : Nat) : Memory.read (loadProgram bytes s).mem a =
      if 0x200 ≤ a then (bytes[a - 0x200]?).getD (Memory.read s.mem a) else Memory.read s.mem a := by
  rcases loadProgram_cases bytes s with ⟨hh, -⟩ | ⟨-, h, -⟩ | ⟨-, -, e⟩
  · simp [hs] at hh
  · omega
  · rw [e]; exact read_writeBytes bytes s.mem 0x200 a

/-- The invariants carry over to a state with the same memory and timers, if I, PC, the stack and the framebuffer are
within their bounds and the latch is unchanged or set with a cause. -/
theorem Inv.carry {s t : State} (h : Inv s) (hi : t.i.toNat ≤ 0x0FFF) (hp : t.pc.toNat ≤ 0x1002)
    (hk : ∀ k : Fin 16, (t.stack[k]).toNat ≤ 0x1000) (hd : t.dt = s.dt) (hst : t.st = s.st) (hm : t.mem = s.mem)
    (hl : latchOf t = latchOf s ∨ (t.halt = true ∧ t.haltCause ≠ .noCause)) (hf : Screen.wf t.fb = true) : Inv t := by
  refine ⟨hi, hp, hk, by rw [hd, hst]; exact h.timers, by rw [hm]; exact h.lowMemory, ?_, ?_,
    by rw [hm]; exact h.memory, hf⟩
  · rcases hl with hl | hl
    · simp only [latchOf, Prod.mk.injEq] at hl; rw [hl.1, hl.2.1, hl.2.2]; exact h.latch
    · simp [hl.1]
  · rcases hl with hl | hl
    · simp only [latchOf, Prod.mk.injEq] at hl; rw [hl.1, hl.2.1]; exact h.cause
    · exact fun _ => hl.2

/-- Loading a program keeps the memory's canonical form. -/
theorem wf_loadProgram (bytes : List Byte) (s : State) (h : Memory.wf s.mem = true) :
    Memory.wf (loadProgram bytes s).mem = true := by
  rcases loadProgram_cases bytes s with ⟨-, e⟩ | ⟨-, -, e⟩ | ⟨-, hl, e⟩ <;> rw [e]
  · exact h
  · exact h
  · exact wf_writeBytes _ _ _ hl h

/-- Reset memory is canonical. -/
theorem wf_reset : Memory.wf State.reset.mem = true := rfl

end Sys2Proof.Machine
end

