-- ==== Sys2Proof/Machine/Assembly.lean ====
section
/-! DEFINITION. The assembly line of an instruction (spec/30_encoding.md R58, R59; the spelling is the spec's decision
D17, log entry 21). It has no effect on execution. -/

namespace Sys2Proof.Machine

/-- `V` and one hexadecimal digit (R58). -/
def regName (x : Reg) : String :=
  match ["V0", "V1", "V2", "V3", "V4", "V5", "V6", "V7", "V8", "V9", "VA", "VB", "VC", "VD", "VE", "VF"][x.val]? with
  | some n => n
  | none => "V"

/-- A line with one operand. -/
def line1 (name a : String) : String := name ++ " " ++ a

/-- A line with two operands. -/
def line2 (name a b : String) : String := name ++ " " ++ a ++ ", " ++ b

/-- The line of an instruction, immediates in decimal, which R58 allows. SHR and SHL are shown without Y, whatever it
is (R59). -/
def disassemble : Instr → String
  | .nop => "NOP"
  | .cls => "CLS"
  | .ret => "RET"
  | .jp nnn => line1 "JP" (toString nnn.toNat)
  | .call nnn => line1 "CALL" (toString nnn.toNat)
  | .seImm x nn => line2 "SE" (regName x) (toString nn.toNat)
  | .sneImm x nn => line2 "SNE" (regName x) (toString nn.toNat)
  | .seReg x y => line2 "SE" (regName x) (regName y)
  | .ldImm x nn => line2 "LD" (regName x) (toString nn.toNat)
  | .addImm x nn => line2 "ADD" (regName x) (toString nn.toNat)
  | .ldReg x y => line2 "LD" (regName x) (regName y)
  | .orReg x y => line2 "OR" (regName x) (regName y)
  | .andReg x y => line2 "AND" (regName x) (regName y)
  | .xorReg x y => line2 "XOR" (regName x) (regName y)
  | .addReg x y => line2 "ADD" (regName x) (regName y)
  | .sub x y => line2 "SUB" (regName x) (regName y)
  | .shr x _ => line1 "SHR" (regName x)
  | .subn x y => line2 "SUBN" (regName x) (regName y)
  | .shl x _ => line1 "SHL" (regName x)
  | .sneReg x y => line2 "SNE" (regName x) (regName y)
  | .ldI nnn => line2 "LD" "I" (toString nnn.toNat)
  | .rnd x nn => line2 "RND" (regName x) (toString nn.toNat)
  | .drw x y n => line2 "DRW" (regName x) (regName y) ++ ", " ++ toString n.val

end Sys2Proof.Machine
end

