-- ==== Sys2Proof/WellFormed.lean ====
section
/-! DEFINITION. Well-formedness of what is written down before it runs. Every term of `Instr` is an encodable
instruction: its operand ranges are carried by the types `Reg`, `Byte`, `Addr` and `Fin 16`, and the spec restricts
them no further (spec/30_encoding.md R53), so no check on executability is left to make. Two checks remain: the form an
assembler emits (R59) and the size of a program image (spec/70_reset_and_hazards.md R151, R152). -/

namespace Sys2Proof

/-- Whether an assembler emits this encoding (R59): SHR and SHL are emitted with Y = 0. The other encodings of SHR and
SHL decode and execute all the same (log entry 13). -/
def Instr.assemblerForm : Instr → Bool
  | .shr _ y => y == 0
  | .shl _ y => y == 0
  | .nop | .cls | .ret | .jp _ | .call _ | .seImm _ _ | .sneImm _ _ | .seReg _ _ | .ldImm _ _ | .addImm _ _
  | .ldReg _ _ | .orReg _ _ | .andReg _ _ | .xorReg _ _ | .addReg _ _ | .sub _ _ | .subn _ _ | .sneReg _ _
  | .ldI _ | .rnd _ _ | .drw _ _ _ => true

/-- Whether a program image fits the memory from 0x200 up (R152): `0x200 + len(bytes) <= 4096`. -/
def Image.fits (bytes : List Byte) : Bool :=
  decide (Config.progBase + bytes.length ≤ Config.memSize)

end Sys2Proof
end

