-- ==== Sys2Proof/Tests/Slice0.lean ====
section
/-! SUPPORT. Tests of single steps, expected results from spec/95_test_vectors.md (the vector is named in each comment)
and the rules' own examples; the smoke test of the well-formedness checks; and, for each statement with hypotheses,
concrete values that meet them. -/

namespace Sys2Proof.Tests
open Sys2Proof.Machine

/-- Reset state with some registers preset. -/
def preset (l : List (Reg × Byte)) : State := l.foldl (fun s p => writeV s p.1 p.2) State.reset

/-- One tick with a word placed where the next fetch reads. -/
def tickWith (w : Word) (s : State) : Option State :=
  match step (placeWord s w) with
  | .next t => some t
  | .fault _ => none
  | .refused _ => none

/-- What a test looks at after the tick. -/
def look {α : Type} (w : Word) (s : State) (f : State → α) : Option α := (tickWith w s).map f

/-- Registers 1 and 2, VF and PC. -/
def regs (t : State) : Byte × Byte × Byte × Word := (readV t 1, readV t 2, readV t vf, t.pc)

/-- The decoder's answer as an option. -/
def decoded (w : Word) : Option Instr := (decodeWord w).toOption

/-! ## Well-formedness refuses ill-formed terms -/

/-- R59: an assembler emits SHR and SHL with Y = 0 only. -/
theorem test_assembler_form :
    (Instr.shr 1 2).assemblerForm = false ∧ (Instr.shl 1 2).assemblerForm = false ∧
    (Instr.shr 1 0).assemblerForm = true := by decide

/-- T9.3, T9.2: an image of 3585 bytes does not fit, one of 3584 does. -/
theorem test_image_size :
    Image.fits (List.replicate 3585 0xAB) = false ∧ Image.fits (List.replicate 3584 0xAB) = true := by
  decide +kernel

/-! ## Decoding: words written out bit by bit from R54's patterns -/

theorem test_decode_fixed :
    decoded 0b0000000000000000 = some .nop ∧ decoded 0b0000000011100000 = some .cls ∧
    decoded 0b0000000011101110 = some .ret := by decide

theorem test_decode_addr :
    decoded 0b0001001000001110 = some (.jp 0x20E) ∧ decoded 0b0010001000001100 = some (.call 0x20C) ∧
    decoded 0b1010111111111110 = some (.ldI 0xFFE) := by decide

theorem test_decode_regimm :
    decoded 0b0011101001111111 = some (.seImm 0xA 0x7F) ∧ decoded 0b0100101001111111 = some (.sneImm 0xA 0x7F) ∧
    decoded 0b0110000000000101 = some (.ldImm 0 5) ∧ decoded 0b0111000101100100 = some (.addImm 1 100) ∧
    decoded 0b1100000100001111 = some (.rnd 1 0x0F) := by decide

theorem test_decode_skips_and_loads :
    decoded 0b0101000100100000 = some (.seReg 1 2) ∧ decoded 0b1001000100100000 = some (.sneReg 1 2) ∧
    decoded 0b1000000100100000 = some (.ldReg 1 2) ∧ decoded 0b1101000000010101 = some (.drw 0 1 5) := by decide

theorem test_decode_alu :
    decoded 0b1000000100100001 = some (.orReg 1 2) ∧ decoded 0b1000000100100010 = some (.andReg 1 2) ∧
    decoded 0b1000000100100011 = some (.xorReg 1 2) ∧ decoded 0b1000000100100100 = some (.addReg 1 2) ∧
    decoded 0b1000000100100101 = some (.sub 1 2) ∧ decoded 0b1000000100100110 = some (.shr 1 2) ∧
    decoded 0b1000000100100111 = some (.subn 1 2) ∧ decoded 0b1000000100101110 = some (.shl 1 2) := by decide

/-- R56: one word of each unrecognized group. -/
theorem test_decode_unrecognized :
    decoded 0x0001 = none ∧ decoded 0x00E1 = none ∧ decoded 0x5121 = none ∧ decoded 0x8128 = none ∧
    decoded 0x9121 = none ∧ decoded 0xB300 = none ∧ decoded 0xE19E = none ∧ decoded 0xF107 = none := by decide

/-- R58's examples for 8106 and D015, R59 for 8126, and the source's "ADD V1,100" with the table's spacing. -/
theorem test_disassemble :
    (decoded 0x8126).map disassemble = some "SHR V1" ∧ (decoded 0xD015).map disassemble = some "DRW V0, V1, 5" ∧
    (decoded 0x7164).map disassemble = some "ADD V1, 100" ∧ (decoded 0xA000).map disassemble = some "LD I, 0" := by
  decide +kernel

/-! ## Flow -/

/-- T1.1. -/
theorem test_nop : look 0x0000 State.reset (fun t => (t.pc, t.halt)) = some (0x202, false) := by decide

/-- T2.4, the rule's example of R81: SP = 1, stack[0] = 0x208. -/
theorem test_ret :
    look 0x00EE { State.reset with sp := 1, stack := State.reset.stack.set 0 0x208 } (fun t => (t.sp, t.pc, t.stack[0])) =
      some (0, 0x208, 0x208) := by decide

/-- T2.3. -/
theorem test_ret_underflow :
    look 0x00EE State.reset (fun t => (status t, t.pc, t.sp)) = some ((true, 2, 0), 0x202, 0) := by decide

/-- T2.1. -/
theorem test_jp : look 0x120E State.reset (fun t => t.pc) = some 0x20E := by decide

/-- T2.4. -/
theorem test_call :
    look 0x220C State.reset (fun t => (t.sp, t.pc, t.stack[0])) = some (1, 0x20C, 0x202) := by decide

/-- T2.6, the seventeenth CALL. -/
theorem test_call_overflow :
    look 0x2200 { State.reset with sp := 16 } (fun t => (status t, t.pc, t.sp)) =
      some ((true, 3, 16), 0x202, 16) := by decide

/-! ## Skips -/

/-- T3.3, T3.2. -/
theorem test_seImm :
    look 0x3FFF (preset [(15, 0xFF)]) (fun t => t.pc) = some 0x204 ∧
    look 0x3000 (preset [(0, 1)]) (fun t => t.pc) = some 0x202 := by decide

/-- T3.4, T3.5. -/
theorem test_sneImm :
    look 0x4A7F (preset [(10, 0x7E)]) (fun t => t.pc) = some 0x204 ∧
    look 0x4A7F (preset [(10, 0x7F)]) (fun t => t.pc) = some 0x202 := by decide

/-- T3.7, T3.8. -/
theorem test_seReg :
    look 0x5120 (preset [(1, 7), (2, 8)]) (fun t => t.pc) = some 0x202 ∧
    look 0x5110 (preset [(1, 9)]) (fun t => t.pc) = some 0x204 := by decide

/-- T3.9, T3.11. -/
theorem test_sneReg :
    look 0x9120 (preset [(1, 7), (2, 8)]) (fun t => t.pc) = some 0x204 ∧
    look 0x9110 (preset [(1, 9)]) (fun t => t.pc) = some 0x202 := by decide

/-! ## Loads and the immediate add -/

/-- T5.2. -/
theorem test_ldImm : look 0x6F80 State.reset (fun t => readV t vf) = some 0x80 := by decide

/-- T5.3, T5.7. -/
theorem test_addImm :
    look 0x7164 (preset [(1, 0xC8), (15, 0x5A)]) regs = some (0x2C, 0, 0x5A, 0x202) ∧
    look 0x7F01 (preset [(15, 0x5A)]) (fun t => readV t vf) = some 0x5B := by decide

/-- T5.10. -/
theorem test_ldI : look 0xAFFF State.reset (fun t => t.i) = some 0xFFF := by decide

/-! ## Register-to-register operations -/

/-- T4.1a, T4.2a, T4.3a, T4.4a. -/
theorem test_logic :
    look 0x8120 (preset [(1, 0x5A), (2, 0x0F), (15, 0xAA)]) regs = some (0x0F, 0x0F, 0xAA, 0x202) ∧
    look 0x8121 (preset [(1, 0x5A), (2, 0x0F), (15, 0xAA)]) regs = some (0x5F, 0x0F, 0xAA, 0x202) ∧
    look 0x8122 (preset [(1, 0x5A), (2, 0x0F), (15, 0xAA)]) regs = some (0x0A, 0x0F, 0xAA, 0x202) ∧
    look 0x8123 (preset [(1, 0x5A), (2, 0x0F), (15, 0xAA)]) regs = some (0x55, 0x0F, 0xAA, 0x202) := by decide

/-- T4.5f, T4.5g, T4.5j, T4.5k. -/
theorem test_addReg :
    look 0x8124 (preset [(1, 0xC8), (2, 0x37)]) regs = some (0xFF, 0x37, 0, 0x202) ∧
    look 0x8124 (preset [(1, 0xC8), (2, 0x38)]) regs = some (0, 0x38, 1, 0x202) ∧
    look 0x81F4 (preset [(1, 0xF0), (15, 0x20)]) regs = some (0x10, 0, 1, 0x202) ∧
    look 0x8F24 (preset [(15, 0xF0), (2, 0x20)]) regs = some (0, 0x20, 1, 0x202) := by decide

/-- T4.6b, T4.6c, T4.6j, T4.6l. -/
theorem test_sub :
    look 0x8125 (preset [(1, 3), (2, 5)]) regs = some (0xFE, 5, 0, 0x202) ∧
    look 0x8125 (preset [(1, 7), (2, 7)]) regs = some (0, 7, 0, 0x202) ∧
    look 0x8F25 (preset [(15, 0x50), (2, 0x20)]) regs = some (0, 0x20, 0xE1, 0x202) ∧
    look 0x81F5 (preset [(1, 0x50), (15, 0x20)]) regs = some (0x4F, 0, 1, 0x202) := by decide

/-- T4.7f, T4.7j. -/
theorem test_shr :
    look 0x8126 (preset [(1, 0xFF), (2, 0x77)]) regs = some (0x7F, 0x77, 1, 0x202) ∧
    look 0x8F26 (preset [(15, 0xFF)]) regs = some (0, 0, 0, 0x202) := by decide

/-- T4.8a, T4.8i, T4.8k. -/
theorem test_subn :
    look 0x8127 (preset [(1, 5), (2, 3)]) regs = some (0xFE, 3, 0, 0x202) ∧
    look 0x8F27 (preset [(15, 0x20), (2, 0x50)]) regs = some (0, 0x50, 0x4F, 0x202) ∧
    look 0x81F7 (preset [(1, 0x20), (15, 0x50)]) regs = some (0xE1, 0, 1, 0x202) := by decide

/-- T4.9e, T4.9i. -/
theorem test_shl :
    look 0x812E (preset [(1, 0x81), (2, 0x77)]) regs = some (2, 0x77, 1, 0x202) ∧
    look 0x8F2E (preset [(15, 0xFF)]) regs = some (0, 0, 2, 0x202) := by decide

/-! ## Random: the drawn byte is free, so its use is tested on the byte B7 -/

/-- T6.1, T6.4. -/
theorem test_rnd_mask :
    readV (loadDrawn 1 0x0F 0xB7 State.reset) 1 = 0x07 ∧ readV (loadDrawn 15 0xF0 0xB7 State.reset) vf = 0xB0 := by
  decide

/-- T6.3: with NN = 0 the result is 0 and the byte is still taken. -/
theorem test_rnd_takes_a_draw : look 0xC300 State.reset (fun t => (t.pc, t.draws)) = some (0x202, 1) := by decide

/-! ## Display -/

/-- T7.9, the last tick: CLS clears the screen and leaves VF. -/
theorem test_cls :
    look 0x00E0 { preset [(15, 9)] with fb := [0, 64, 2047] } (fun t => (t.fb, readV t vf)) = some ([], 9) := by decide

/-- T7.3: clipped at the corner, no wrap; T7.12: a collision turns its cell off and drawing goes on; T7.15: the third
row lies past the end of memory. -/
theorem test_drw :
    look 0xD015 (preset [(0, 62), (1, 30)]) (fun t => (t.fb, readV t vf)) = some ([1982, 1983, 2046], 0) ∧
    look 0xD015 { State.reset with fb := [0, 65] } (fun t => (t.fb, readV t vf)) =
      some ([1, 2, 3, 64, 65, 67, 128, 131, 192, 195, 256, 257, 258, 259], 1) ∧
    look 0xD003 { State.reset with i := 0xFFE } (fun t => (status t, t.pc, t.i)) =
      some ((true, 4, 0x1000), 0x202, 0xFFE) := by decide +kernel

/-- T7.18, T7.19: VF as the column and as the row register moves to 1 after the first collision. -/
theorem test_drw_vf :
    look 0xDF11 { preset [(15, 7), (1, 3)] with fb := [192] } (fun t => (t.fb, readV t vf)) =
      some ([194, 195, 196], 1) ∧
    look 0xD1F2 { preset [(15, 7), (1, 3)] with fb := [3] } (fun t => (t.fb, readV t vf)) =
      some ([68, 69, 70, 131, 134], 1) := by decide +kernel

/-! ## The cycle and the host's operations -/

/-- T1.2: an unrecognized word is passed and reported. -/
theorem test_unrecognized :
    look 0xF107 State.reset (fun t => (t.pc, t.halt)) = some (0x202, false) ∧
    report (placeWord State.reset 0xF107) = some ⟨0xF107, 0x200⟩ := by decide

/-- T8.3, T8.5: the fetch fault names the first address out of range and leaves PC. -/
theorem test_fetch_fault :
    look 0 { State.reset with pc := 0xFFF } (fun t => (status t, t.pc)) = some ((true, 4, 0x1000), 0xFFF) ∧
    look 0 { State.reset with pc := 0x1002 } (fun t => (status t, t.pc)) = some ((true, 4, 0x1002), 0x1002) := by decide

/-- T8.6: big-endian fetch of the bytes 12 34. -/
theorem test_fetch_big_endian : (match step (loadProgram [0x12, 0x34] State.reset) with
    | .next t => t.pc
    | .fault _ => 0
    | .refused _ => 0) = 0x234 := by decide

/-- T10.1, T10.2. -/
theorem test_timer_tick :
    ((timerTick { State.reset with dt := 3, st := 1 }).dt, (timerTick { State.reset with dt := 3, st := 1 }).st) =
      (2, 0) ∧ (timerTick { State.reset with dt := 2, st := 0 }).st = 0 := by decide

/-- T10.6. -/
theorem test_set_key : (setKey 5 true State.reset).key[5] = true ∧
    (setKey 5 false (setKey 5 true State.reset)).key[5] = false := by decide

/-- T9.3: a program one byte too long. -/
theorem test_load_too_large :
    status (loadProgram (List.replicate 3585 0xAB) State.reset) = (true, 1, 0) := by decide +kernel

/-- T10.8: a halted machine ignores everything but reset. -/
theorem test_halted :
    let s := raiseFatal ⟨.stackUnderflow, 0⟩ { State.reset with dt := 3 }
    (timerTick s).dt = 3 ∧ setKey 1 true s = s ∧ loadProgram [0x60, 0x05] s = s ∧ reset s = State.reset := by decide

/-- The host's two entry points on the table's words. -/
theorem test_table_word :
    decodeTableWord 16 0xD015 = some (.drw 0 1 5) ∧
    (match step (State.reset.withFetchWord 16 0x6005) with
      | .next t => readV t 0
      | .fault _ => 0
      | .refused _ => 0) = 5 := by decide

/-! ## Witnesses: concrete values that meet each statement's hypotheses -/

/-- A state that can fetch, with a word placed. -/
def ready (w : Word) : State := placeWord State.reset w

/-- A halted state. -/
def halted : State := raiseFatal ⟨.stackUnderflow, 0⟩ State.reset

theorem witness_EncodeDecodeRoundTrip : decodeWord 0x7164 = .ok (.addImm 1 100) := rfl

theorem witness_DecodeSelectsTheOneMatchingRow :
    decodeWord 0x8FFE = .ok (.shl 0xF 0xF) ∧ decodeWord 0x8FFF = .error (.unrecognized 0x8FFF) := ⟨rfl, rfl⟩

/-- Both clauses, at the last fetchable address and the first that is not. -/
theorem witness_FetchReadsBigEndianWordAndAdvancesPc :
    ({ State.reset with pc := 0xFFE } : State).pc.toNat ≤ 0xFFE ∧
    0xFFE < ({ State.reset with pc := 0xFFF } : State).pc.toNat ∧ Safe { State.reset with pc := 0xFFF } :=
  ⟨by decide, by decide, rfl⟩

theorem witness_StepRunsTheDecodedInstruction :
    Safe (ready 0xD015) ∧ (ready 0xD015).pc.toNat ≤ 0xFFE ∧
    decode [Memory.read (ready 0xD015).mem (ready 0xD015).pc.toNat,
      Memory.read (ready 0xD015).mem ((ready 0xD015).pc.toNat + 1)] = .ok (.drw 0 1 5, []) := ⟨rfl, by decide, rfl⟩

theorem witness_UnrecognizedWordIsReportedAndPassed :
    Safe (ready 0xFFFF) ∧ (ready 0xFFFF).pc.toNat ≤ 0xFFE ∧
    decodeWord (wordAtPc (ready 0xFFFF)) = .error (.unrecognized 0xFFFF) := ⟨rfl, by decide, rfl⟩

/-- Where only the second byte is missing, where both are, and at the last PC of all. -/
theorem witness_FetchOutOfRangeHalts :
    Safe { State.reset with pc := 0xFFF } ∧ 0xFFE < ({ State.reset with pc := 0xFFF } : State).pc.toNat ∧
    Safe { State.reset with pc := 0x1000 } ∧ 0xFFE < ({ State.reset with pc := 0x1000 } : State).pc.toNat ∧
    Safe { State.reset with pc := 0xFFFF } ∧ 0xFFE < ({ State.reset with pc := 0xFFFF } : State).pc.toNat :=
  ⟨rfl, by decide, rfl, by decide, rfl, by decide⟩

theorem witness_HaltedTicksChangeNothing : halted.halt = true := rfl

theorem witness_JumpToItselfIsAFixedPoint :
    Safe (ready 0x1200) ∧ (ready 0x1200).pc.toNat = (0x200 : Addr).toNat ∧ (ready 0x1200).pc.toNat ≤ 0xFFE ∧
    decodeWord (wordAtPc (ready 0x1200)) = .ok (.jp 0x200) := ⟨rfl, by decide, by decide, rfl⟩

theorem witness_FatalErrorAndReportExcludeEachOther :
    Safe (ready 0x00EE) ∧
    step (ready 0x00EE) = .next (raiseFatal ⟨.stackUnderflow, 0⟩ (advancePc (ready 0x00EE))) ∧
    (raiseFatal ⟨.stackUnderflow, 0⟩ (advancePc (ready 0x00EE))).halt = true := ⟨rfl, rfl, rfl⟩

theorem witness_NopOnlyAdvancesPc :
    Safe State.reset ∧ State.reset.pc.toNat ≤ 0xFFE ∧ wordAtPc State.reset = 0x0000 := ⟨rfl, by decide, rfl⟩

/-- Both clauses, at the full stack and at the last and first free slot. -/
theorem witness_CallPushesTheReturnAddress :
    ({ State.reset with sp := 16 } : State).sp.val = 16 ∧ ({ State.reset with sp := 15 } : State).sp.val ≠ 16 ∧
    State.reset.sp.val ≠ 16 := by decide

/-- Both clauses, at the empty stack and at one entry and a full stack. -/
theorem witness_RetPopsTheReturnAddress :
    State.reset.sp.val = 0 ∧ ({ State.reset with sp := 1 } : State).sp.val = (0 : Fin 16).val + 1 ∧
    ({ State.reset with sp := 16 } : State).sp.val = (15 : Fin 16).val + 1 := by decide

theorem witness_CallThenRetReturns :
    State.reset.sp.val ≠ 16 ∧ ∃ t, exec (.call 0x300) State.reset = .next t ∧
      ({ t with pc := 0x300 } : State).sp = t.sp ∧ ({ t with pc := 0x300 } : State).stack = t.stack :=
  ⟨by decide, _, rfl, rfl, rfl⟩

theorem witness_ArithmeticResultsAndFlags : (1 : Reg) ≠ vf ∧ (2 : Reg) ≠ vf := by decide

theorem witness_VfAsOperandFollowsTheWrittenOrder : (1 : Reg) ≠ vf ∧ (0xE : Reg) ≠ vf := by decide

theorem witness_OnlyRndTakesADraw :
    (∃ t, exec (.rnd 3 0) State.reset = .next t) ∧ (∃ t, exec .cls State.reset = .next t) ∧
    ∀ x nn, Instr.cls ≠ .rnd x nn := ⟨⟨_, rfl⟩, ⟨_, rfl⟩, by simp⟩

/-- The last sprite that is all in memory, the first that is not, and N = 0 beyond memory. -/
theorem witness_DrwFollowsTheSourceStatements :
    (let s := { State.reset with i := 0xFFE }; s.i.toNat + (2 : Fin 16).val ≤ 4096) ∧
    (let s := { State.reset with i := 0xFFE }; 4096 < s.i.toNat + (3 : Fin 16).val ∧ (3 : Fin 16).val ≠ 0) ∧
    (let s := { State.reset with i := 0xFFFF }; 4096 < s.i.toNat + (0 : Fin 16).val ∧ (0 : Fin 16).val = 0) := by
  decide

theorem witness_DrwTogglesExactlyTheCoveredCells :
    (0 : Reg) ≠ vf ∧ (1 : Reg) ≠ vf ∧ State.reset.i.toNat + (5 : Fin 16).val ≤ 4096 ∧
    (let s := { State.reset with fb := [0] }
     Screen.cell s.fb (cellIndex 0 0) = true ∧ spriteCovers s 0 1 5 0 0 = true) ∧
    (∀ cx cy, Screen.cell State.reset.fb (cellIndex cx cy) = true → spriteCovers State.reset 0 1 5 cx cy = false) :=
  ⟨by decide, by decide, by decide, by decide, by simp [State.reset]⟩

theorem witness_DrwFrame :
    (let s := { State.reset with i := 0xFF1 }; s.i.toNat + (15 : Fin 16).val ≤ 4096) ∧ (0 : Fin 16).val = 0 := by decide

theorem witness_DrawingTwiceRestoresTheScreen :
    (0 : Reg) ≠ vf ∧ (1 : Reg) ≠ vf ∧ State.reset.i.toNat + (5 : Fin 16).val ≤ 4096 ∧
    (∃ t u, exec (.drw 0 1 5) State.reset = .next t ∧ exec (.drw 0 1 5) t = .next u) ∧
    spriteCovers State.reset 0 1 5 0 0 = true ∧ ∀ k, Screen.cell State.reset.fb k = false :=
  ⟨by decide, by decide, by decide, ⟨_, _, rfl, rfl⟩, by decide, fun _ => rfl⟩

theorem witness_TimerTickCountsDownToZero : Safe { State.reset with dt := 3 } ∧ halted.halt = true := ⟨rfl, rfl⟩

theorem witness_SetKeyWritesOneKey : Safe State.reset := rfl

/-- The longest program that fits. -/
theorem witness_LoadProgramCopiesTheBytes :
    Safe State.reset ∧ 0x200 + (List.replicate 3584 (0xAB : Byte)).length ≤ 4096 := ⟨rfl, by decide +kernel⟩

/-- The shortest program that does not fit and the longest that does. -/
theorem witness_LoadProgramRefusesWhatDoesNotFit :
    Safe State.reset ∧ 4096 < 0x200 + (List.replicate 3585 (0xAB : Byte)).length ∧
    (List.replicate 3584 (0xAB : Byte)).length = 3584 := ⟨rfl, by decide +kernel, by decide +kernel⟩

theorem witness_OnlyResetActsWhileHalted : halted.halt = true ∧ Operation.tick ≠ .reset := ⟨rfl, by decide⟩

/-- PC at the last word of a program that fills memory, and PC inside a program, at an odd place, on a word that is no
instruction. -/
theorem witness_LoadIsSeenByTheNextFetch :
    (let s := { State.reset with pc := 0xFFE }
     let bytes := List.replicate 3582 (0xAB : Byte) ++ [0x12, 0x34]
     Safe s ∧ 0x200 + bytes.length ≤ 4096 ∧ s.pc.toNat = 0x200 + 3582 ∧ bytes[3582]? = some 0x12 ∧
       bytes[3582 + 1]? = some 0x34 ∧ (∃ t, perform (.loadProgram bytes) s = .next t) ∧
       decodeWord (joinBytes 0x12 0x34) = .ok (.jp 0x234)) ∧
    (let s := { State.reset with pc := 0x201 }
     let bytes : List Byte := [0x60, 0xF1, 0x07, 0x05]
     Safe s ∧ 0x200 + bytes.length ≤ 4096 ∧ s.pc.toNat = 0x200 + 1 ∧ bytes[1]? = some 0xF1 ∧
       bytes[1 + 1]? = some 0x07 ∧ (∃ t, perform (.loadProgram bytes) s = .next t) ∧
       decodeWord (joinBytes 0xF1 0x07) = .error (.unrecognized 0xF107)) := by
  refine ⟨⟨rfl, by decide +kernel, by decide, by decide +kernel, by decide +kernel, ⟨_, rfl⟩, rfl⟩,
    rfl, by decide, by decide, rfl, rfl, ⟨_, rfl⟩, rfl⟩

/-- A state other than reset that satisfies the invariants: V0 loaded, PC moved on. -/
theorem witness_StepKeepsTheInvariants :
    Inv (writeV { State.reset with pc := 0x202 } 0 5) ∧
    ∃ t, step (writeV { State.reset with pc := 0x202 } 0 5) = .next t := by
  refine ⟨⟨by decide, by decide, ?_, ⟨rfl, rfl⟩, fun _ _ => rfl, fun _ => ⟨rfl, rfl⟩, by decide, rfl, rfl⟩, _, rfl⟩
  decide

/-- The largest I, PC and stack entries the invariants admit, a full stack, and each operation performed there. -/
theorem witness_OperationsKeepTheInvariants :
    Inv { State.reset with i := 0xFFF, pc := 0x1002, sp := 16, stack := .replicate 16 0x1000 } ∧
    ∀ op, ∃ t, perform op { State.reset with i := 0xFFF, pc := 0x1002, sp := 16, stack := .replicate 16 0x1000 } =
      .next t := by
  refine ⟨⟨by decide, by decide, by decide, ⟨rfl, rfl⟩, fun _ _ => rfl, fun _ => ⟨rfl, rfl⟩, by decide, rfl, rfl⟩, ?_⟩
  intro op
  cases op <;> exact ⟨_, rfl⟩

theorem witness_ReachableStatesSatisfyTheInvariants : Reachable (setKey 5 true State.reset) :=
  .perform (.setKey 5 true) .reset rfl

theorem witness_InstructionsLeaveMemoryKeysAndTimers : ∃ t, exec (.drw 0 1 5) State.reset = .next t := ⟨_, rfl⟩

theorem witness_ScreenIndexAndStackHaveOnlyTheirWriters :
    (∃ t, exec (.addReg 1 2) State.reset = .next t) ∧ Instr.addReg 1 2 ≠ .cls ∧ Instr.addReg 1 2 ≠ .ret ∧
    (∀ x y n, Instr.addReg 1 2 ≠ .drw x y n) ∧ (∀ nnn, Instr.addReg 1 2 ≠ .ldI nnn) ∧
    ∀ nnn, Instr.addReg 1 2 ≠ .call nnn := ⟨⟨_, rfl⟩, by decide, by decide, by simp, by simp, by simp⟩

theorem witness_RegistersAndPcHaveOnlyTheirWriters :
    (∃ t, exec (.sub 1 2) State.reset = .next t) ∧ (2 : Reg) ∉ writtenRegs (.sub 1 2) ∧
    (∀ nnn, Instr.sub 1 2 ≠ .jp nnn) ∧ (∀ nnn, Instr.sub 1 2 ≠ .call nnn) ∧ Instr.sub 1 2 ≠ .ret ∧
    (∀ x nn, Instr.sub 1 2 ≠ .seImm x nn) ∧ (∀ x nn, Instr.sub 1 2 ≠ .sneImm x nn) ∧
    (∀ x y, Instr.sub 1 2 ≠ .seReg x y) ∧ (∀ x y, Instr.sub 1 2 ≠ .sneReg x y) :=
  ⟨⟨_, rfl⟩, by decide, by simp, by simp, by decide, by simp, by simp, by simp, by simp⟩

/-- Each listed condition is met, and just missed: one entry on the stack, one slot free, the last row at 4095. -/
theorem witness_InstructionsHaltExactlyOnTheListedConditions :
    Safe State.reset ∧ (∃ t, exec .ret State.reset = .next t ∧ t.halt = true) ∧
    (∃ t, exec .ret { State.reset with sp := 1 } = .next t ∧ t.halt = false) ∧
    (∃ t, exec (.call 0) { State.reset with sp := 16 } = .next t ∧ t.halt = true) ∧
    (∃ t, exec (.call 0) { State.reset with sp := 15 } = .next t ∧ t.halt = false) ∧
    (∃ t, exec (.drw 0 0 1) { State.reset with i := 0x1000 } = .next t ∧ t.halt = true) ∧
    (∃ t, exec (.drw 0 0 1) { State.reset with i := 0xFFF } = .next t ∧ t.halt = false) :=
  ⟨rfl, ⟨_, rfl, rfl⟩, ⟨_, rfl, rfl⟩, ⟨_, rfl, rfl⟩, ⟨_, rfl, rfl⟩, ⟨_, rfl, rfl⟩, ⟨_, rfl, rfl⟩⟩

theorem witness_TicksDoNotReadKeysOrTimers : ∃ t, step (ready 0xD015) = .next t := ⟨_, rfl⟩

/-- A last fetchable RET on an empty stack, in a state that satisfies the invariants. -/
theorem witness_FatalErrorsFromInvariantStates :
    let s := raiseFatal ⟨.stackUnderflow, 0⟩ (advancePc (ready 0x00EE))
    Inv (ready 0x00EE) ∧ Safe (ready 0x00EE) ∧ step (ready 0x00EE) = .next s ∧ s.halt = true := by
  refine ⟨⟨by decide, by decide, by decide, ⟨rfl, rfl⟩, ?_, fun _ => ⟨rfl, rfl⟩, by decide, by decide, rfl⟩, rfl, rfl,
    rfl⟩
  intro a ha
  exact (read_writeBytes _ [] 0x200 a).trans (if_neg (by omega))

theorem witness_OperationsKeepTheCanonicalForms :
    Memory.wf (ready 0x6005).mem = true ∧ Screen.wf [0, 65] = true ∧
    ∃ t, perform .tick (ready 0x6005) = .next t := ⟨by decide, by decide, _, rfl⟩

end Sys2Proof.Tests
end

section
/-! The decoder and the encoder undo each other field by field, and every word matches at most one row of R54. -/

namespace Sys2Proof

theorem decodeWord_eq_ok_iff (w : Word) (i : Instr) :
    decodeWord w = .ok i ↔ selectRow (nibble1 w) (nibble2 w) (nibble3 w) (nibble4 w) = some i := by
  unfold decodeWord
  cases selectRow (nibble1 w) (nibble2 w) (nibble3 w) (nibble4 w) <;> simp

@[simp] theorem extract_high_immOf (c d : Nibble) : (immOf c d).extractLsb' 4 4 = c :=
  BitVec.extractLsb'_append_eq_left

@[simp] theorem extract_low_immOf (c d : Nibble) : (immOf c d).extractLsb' 0 4 = d :=
  BitVec.extractLsb'_append_eq_right

@[simp] theorem extract_high_addrOf (b c d : Nibble) : (addrOf b c d).extractLsb' 8 4 = b :=
  (BitVec.extractLsb'_append_eq_of_le (by decide)).trans BitVec.extractLsb'_append_eq_left

@[simp] theorem extract_middle_addrOf (b c d : Nibble) : (addrOf b c d).extractLsb' 4 4 = c :=
  (BitVec.extractLsb'_append_eq_of_le (by decide)).trans BitVec.extractLsb'_append_eq_right

@[simp] theorem extract_low_addrOf (b c d : Nibble) : (addrOf b c d).extractLsb' 0 4 = d :=
  BitVec.extractLsb'_append_eq_right

/-! ## The three formats of R52: the word from its fields, and its fields as R51 names them -/

@[simp] theorem encodeRegImm_immOf (op b c d : Nibble) :
    encodeRegImm op (nibbleIndex b) (immOf c d) = ofNibbles op b c d := by simp [encodeRegImm]

@[simp] theorem encodeAddr_addrOf (op b c d : Nibble) : encodeAddr op (addrOf b c d) = ofNibbles op b c d := by
  simp [encodeAddr]

@[simp] theorem encodeRegReg_nibbleIndex (op b c d : Nibble) :
    encodeRegReg op (nibbleIndex b) (nibbleIndex c) d = ofNibbles op b c d := rfl

theorem encodeAddr_field (op : Nibble) (nnn : Addr) : nnn.toNat = (encodeAddr op nnn).toNat % 4096 := by
  rw [← addrOf_toNat]
  simp [encodeAddr]

/-- The field X of a word whose second nibble is a register index. -/
theorem field_x (op : Nibble) (x : Fin 16) (c d : Nibble) :
    x.val = (ofNibbles op (indexNibble x) c d).toNat / 256 % 16 := by
  rw [← nibble2_toNat, nibble2_ofNibbles]
  rfl

theorem encodeRegImm_fields (op : Nibble) (x : Reg) (nn : Byte) :
    x.val = (encodeRegImm op x nn).toNat / 256 % 16 ∧ nn.toNat = (encodeRegImm op x nn).toNat % 256 := by
  refine ⟨field_x .., ?_⟩
  rw [← immOf_toNat]
  simp [encodeRegImm]

theorem encodeRegReg_fields (op : Nibble) (x y : Reg) (d : Nibble) :
    x.val = (encodeRegReg op x y d).toNat / 256 % 16 ∧ y.val = (encodeRegReg op x y d).toNat / 16 % 16 := by
  refine ⟨field_x .., ?_⟩
  rw [← nibble3_toNat, encodeRegReg, nibble3_ofNibbles]
  rfl

theorem encodeRegReg_minor (op : Nibble) (x y n : Fin 16) :
    n.val = (encodeRegReg op x y (indexNibble n)).toNat % 16 := by
  rw [← nibble4_toNat, encodeRegReg, nibble4_ofNibbles]
  rfl

/-- Every operand stands in the encoder's word at the bit places R51 names. -/
theorem operandsAreFields_encode (i : Instr) : Machine.OperandsAreFields (encode i) i := by
  cases i with
  | nop | cls | ret => trivial
  | jp | call | ldI => exact encodeAddr_field ..
  | seImm | sneImm | ldImm | addImm | rnd => exact encodeRegImm_fields ..
  | seReg | sneReg | ldReg | orReg | andReg | xorReg | addReg | sub | shr | subn | shl =>
    exact encodeRegReg_fields ..
  | drw x y n =>
    obtain ⟨hx, hy⟩ := encodeRegReg_fields 0xD x y (indexNibble n)
    exact ⟨hx, hy, encodeRegReg_minor ..⟩

/-! ## What the decoder selects is encoded by the word it read -/

theorem encode_of_selectFixed {b c d : Nibble} {i : Instr} (h : selectFixed b c d = some i) :
    encode i = ofNibbles 0x0 b c d := by
  unfold selectFixed at h
  split at h <;> cases h <;> rfl

theorem encode_of_selectAlu {b c d : Nibble} {i : Instr}
    (h : selectAlu (nibbleIndex b) (nibbleIndex c) d = some i) : encode i = ofNibbles 0x8 b c d := by
  unfold selectAlu at h
  split at h <;> cases h <;> rfl

theorem selectIfZero_eq_some_iff (d : Nibble) (i j : Instr) :
    selectIfZero d i = some j ↔ d = 0x0#4 ∧ i = j := by simp [selectIfZero]

theorem encode_of_selectRow {a b c d : Nibble} {i : Instr} (h : selectRow a b c d = some i) :
    encode i = ofNibbles a b c d := by
  unfold selectRow at h
  split at h
  case h_1 => exact encode_of_selectFixed h
  case h_6 | h_10 =>
    obtain ⟨rfl, rfl⟩ := (selectIfZero_eq_some_iff ..).mp h
    rfl
  case h_9 => exact encode_of_selectAlu h
  case h_14 => cases h
  all_goals
    cases h
    simp [encode]

/-- A word that decodes is the encoding of what it decodes to. -/
theorem encode_of_decodeWord {w : Word} {i : Instr} (h : decodeWord w = .ok i) : encode i = w := by
  rw [decodeWord_eq_ok_iff] at h
  simpa using encode_of_selectRow h

/-! ## The rows of R54's table -/

open Laws in
/-- The encoder's word matches the row its instruction belongs to. -/
theorem encode_matches_row : ∀ i : Instr, encode i &&& i.row.mask = i.row.pattern
  | .nop => MatchesRow.nop
  | .cls => MatchesRow.cls
  | .ret => MatchesRow.ret
  | .jp nnn => MatchesRow.jp nnn
  | .call nnn => MatchesRow.call nnn
  | .seImm x nn => MatchesRow.seImm x nn
  | .sneImm x nn => MatchesRow.sneImm x nn
  | .seReg x y => MatchesRow.seReg x y
  | .ldImm x nn => MatchesRow.ldImm x nn
  | .addImm x nn => MatchesRow.addImm x nn
  | .ldReg x y => MatchesRow.ldReg x y
  | .orReg x y => MatchesRow.orReg x y
  | .andReg x y => MatchesRow.andReg x y
  | .xorReg x y => MatchesRow.xorReg x y
  | .addReg x y => MatchesRow.addReg x y
  | .sub x y => MatchesRow.sub x y
  | .shr x y => MatchesRow.shr x y
  | .subn x y => MatchesRow.subn x y
  | .shl x y => MatchesRow.shl x y
  | .sneReg x y => MatchesRow.sneReg x y
  | .ldI nnn => MatchesRow.ldI nnn
  | .rnd x nn => MatchesRow.rnd x nn
  | .drw x y n => MatchesRow.drw x y n

theorem row_mem_opcodeRows (i : Instr) : i.row ∈ opcodeRows := by
  cases i <;> simp [opcodeRows, rowSamples, Instr.row]

/-- Two rows whose patterns agree on the bits both masks keep are one row. -/
theorem opcodeRows_disjoint :
    ∀ r ∈ opcodeRows, ∀ q ∈ opcodeRows, r.pattern &&& q.mask = q.pattern &&& r.mask → r = q := by
  decide

/-- A word matches at most one row. -/
theorem row_unique {w : Word} {r q : Row} (hr : r ∈ opcodeRows) (hq : q ∈ opcodeRows)
    (hwr : w &&& r.mask = r.pattern) (hwq : w &&& q.mask = q.pattern) : r = q := by
  refine opcodeRows_disjoint r hr q hq ?_
  rw [← hwr, ← hwq, BitVec.and_assoc, BitVec.and_assoc, BitVec.and_comm r.mask]

/-! ## A word that matches a row decodes -/

theorem nibble1_of_mask_major {w p : Word} (h : w &&& 0xF000#16 = p) : nibble1 w = nibble1 p := by
  rw [← h, ← ofNibbles_nibbles w, Laws.MatchesRow.mask_major]
  simp

theorem nibbles_of_mask_minor {w p : Word} (h : w &&& 0xF00F#16 = p) :
    nibble1 w = nibble1 p ∧ nibble4 w = nibble4 p := by
  rw [← h, ← ofNibbles_nibbles w, Laws.MatchesRow.mask_minor]
  simp

theorem decodes_of_mask_major {w p : Word} (hp : ∀ b c d, (selectRow (nibble1 p) b c d).isSome = true)
    (h : w &&& 0xF000#16 = p) : ∃ i, decodeWord w = .ok i := by
  simpa only [decodeWord_eq_ok_iff, nibble1_of_mask_major h] using Option.isSome_iff_exists.mp (hp _ _ _)

theorem decodes_of_mask_minor {w p : Word}
    (hp : ∀ b c, (selectRow (nibble1 p) b c (nibble4 p)).isSome = true) (h : w &&& 0xF00F#16 = p) :
    ∃ i, decodeWord w = .ok i := by
  obtain ⟨h1, h4⟩ := nibbles_of_mask_minor h
  simpa only [decodeWord_eq_ok_iff, h1, h4] using Option.isSome_iff_exists.mp (hp _ _)

theorem decodes_of_mask_full {w p : Word} (hp : ∃ i, decodeWord p = .ok i) (h : w &&& 0xFFFF#16 = p) :
    ∃ i, decodeWord w = .ok i := by
  have hw : w = p := (BitVec.and_allOnes (x := w)).symm.trans h
  exact hw ▸ hp

/-- A word that matches the row of some instruction decodes: R54's masks keep exactly the fields the dispatch reads. -/
theorem decodes_of_matches_row {w : Word} (i : Instr) (h : w &&& i.row.mask = i.row.pattern) :
    ∃ j, decodeWord w = .ok j := by
  cases i with
  | nop | cls | ret => exact decodes_of_mask_full ⟨_, rfl⟩ h
  | jp | call | seImm | sneImm | ldImm | addImm | ldI | rnd | drw =>
    exact decodes_of_mask_major (by simp [Instr.row, nibble1, selectRow]) h
  | seReg | sneReg | ldReg | orReg | andReg | xorReg | addReg | sub | shr | subn | shl =>
    exact decodes_of_mask_minor (by simp [Instr.row, nibble1, nibble4, selectRow, selectAlu, selectIfZero]) h

/-- The rows a decoded word matches: its instruction's row and no other. -/
theorem matches_iff_of_decodeWord {w : Word} {i : Instr} (h : decodeWord w = .ok i) {r : Row} (hr : r ∈ opcodeRows) :
    w &&& r.mask = r.pattern ↔ r = i.row := by
  have hi : w &&& i.row.mask = i.row.pattern := encode_of_decodeWord h ▸ encode_matches_row i
  exact ⟨fun hw => row_unique hr (row_mem_opcodeRows i) hw hi, fun e => e ▸ hi⟩

/-- A word that decodes to nothing matches no row. -/
theorem not_matches_of_decodeWord_error {w : Word} {e : Reject} (h : decodeWord w = .error e) {r : Row}
    (hr : r ∈ opcodeRows) : w &&& r.mask ≠ r.pattern := by
  obtain ⟨i, -, rfl⟩ := List.mem_map.mp hr
  intro hw
  obtain ⟨j, hj⟩ := decodes_of_matches_row i hw
  simp [h] at hj

end Sys2Proof
end

section
/-! The statements of spec/40_cycle.md's decode and fetch (R72, R73). -/

namespace Sys2Proof.Machine

/-- Settles O3: a word that decodes is its instruction's encoding, which matches that instruction's row and carries its
operands; the rows are disjoint, and a word that matches one decodes. -/
theorem decodeSelectsTheOneMatchingRow : Obligations.DecodeSelectsTheOneMatchingRow := by
  refine ⟨fun w => ⟨fun i h => ⟨row_mem_opcodeRows i, fun r => matches_iff_of_decodeWord h, ?_⟩,
    fun e h r => not_matches_of_decodeWord_error h⟩, fun x y y' s => ⟨rfl, rfl⟩⟩
  exact encode_of_decodeWord h ▸ operandsAreFields_encode i

theorem advancePc_frame (s : State) : Frame [] [.pc] s (advancePc s) := skipIf_frame true s

theorem advancePc_pc_toNat (s : State) : (advancePc s).pc.toNat = (s.pc.toNat + 2) % 65536 := by simp

/-- A step whose fetch is out of range takes the fetch's fatal error (R72, R132). -/
theorem step_fetch_outside {s : State} (hs : Safe s) (h : 0xFFE < s.pc.toNat) :
    step s = .next (raiseFatal ⟨.memOob, BitVec.ofNat 16 (max s.pc.toNat 4096)⟩ s) := by
  rcases step_cases s with ⟨hh, -⟩ | ⟨-, -, e⟩ | ⟨-, hp, -⟩
  · simp [Safe, hh] at hs
  · exact e
  · omega

/-- Settles O6, from the two cases of the fetch. -/
theorem fetchReadsBigEndianWordAndAdvancesPc : Obligations.FetchReadsBigEndianWordAndAdvancesPc := by
  refine fun s => ⟨fun h => ?_, fun h => ⟨⟨_, fetch_outside h⟩, fun hs => ?_⟩⟩
  · exact ⟨_, _, fetch_inside h, highByte_joinBytes .., lowByte_joinBytes .., advancePc_pc_toNat s,
      advancePc_frame s⟩
  · exact ⟨_, step_fetch_outside hs h, raiseFatal_haltCause .., raiseFatal_pc ..⟩

end Sys2Proof.Machine
end

section
/-! The statements of spec/41_flow.md on NOP, JP and CALL (R80, R82, R83). -/

namespace Sys2Proof.Machine

@[simp] theorem exec_nop (s : State) : exec .nop s = .next s := rfl

@[simp] theorem exec_jp (nnn : Addr) (s : State) : exec (.jp nnn) s = .next (jumpTo (zextAddr nnn) s) := rfl

theorem exec_call (nnn : Addr) (s : State) :
    exec (.call nnn) s = .next (orFatal s ((pushPc s).map (jumpTo (zextAddr nnn)))) := rfl

theorem exec_call_of_full (nnn : Addr) {s : State} (h : s.sp.val = 16) :
    exec (.call nnn) s = .next (raiseFatal ⟨.stackOverflow, 16⟩ s) := by
  rcases call_cases (zextAddr nnn) s with ⟨-, e⟩ | ⟨hlt, -⟩
  · rw [exec_call, e]
  · omega

theorem exec_call_of_room (nnn : Addr) {s : State} (h : s.sp.val < 16) :
    exec (.call nnn) s =
      .next { s with
        stack := s.stack.set s.sp.val s.pc h, sp := ⟨s.sp.val + 1, by omega⟩, pc := zextAddr nnn } := by
  rcases call_cases (zextAddr nnn) s with ⟨hfull, -⟩ | ⟨_, e⟩
  · omega
  · rw [exec_call, e]

@[simp] theorem zextAddr_toNat (nnn : Addr) : (zextAddr nnn).toNat = nnn.toNat :=
  BitVec.toNat_setWidth_of_le (by decide)

/-- New values for PC, SP and the stack leave every other part as it was. -/
theorem frame_update_flow (s : State) (pc : Word) (sp : Fin 17) (stack : Vector Word 16) :
    Frame [] [.pc, .sp, .stack] s { s with pc := pc, sp := sp, stack := stack } :=
  ⟨fun _ _ => rfl, fun p hp => by cases p <;> simp_all [Part.same, latchOf]⟩

/-- A jump changes nothing but PC. -/
theorem jumpTo_frame (w : Word) (s : State) : Frame [] [.pc] s (jumpTo w s) :=
  ⟨fun _ _ => rfl, fun p hp => by cases p <;> simp_all [Part.same, latchOf]⟩

/-- A step on a word that decodes executes the instruction after the fetch's advance of PC (R70, R72, R74). -/
theorem step_of_decodeWord {s : State} {i : Instr} (hs : Safe s) (hp : s.pc.toNat ≤ 0xFFE)
    (hd : decodeWord (wordAtPc s) = .ok i) : step s = exec i (advancePc s) := by
  rcases step_cases s with ⟨hh, -⟩ | ⟨-, ho, -⟩ | ⟨-, -, ⟨e, he, -⟩ | ⟨j, hj, hstep⟩⟩
  · simp [Safe, hh] at hs
  · omega
  · cases hd.symm.trans he
  · cases hd.symm.trans hj
    exact hstep

/-- A step on a word that decodes emits no report (R145). -/
theorem report_of_decodeWord {s : State} {i : Instr} (hs : Safe s) (hp : s.pc.toNat ≤ 0xFFE)
    (hd : decodeWord (wordAtPc s) = .ok i) : report s = none := by
  simp only [Safe] at hs
  simp only [wordAtPc] at hd
  simp [report, hs, fetch_inside hp, reportOf, hd]

/-- Settles O18, from the two cases of the call: the full stack, and the push followed by the jump. -/
theorem callPushesTheReturnAddress : Obligations.CallPushesTheReturnAddress := by
  refine fun nnn s => ⟨exec_call_of_full nnn, fun h => ?_⟩
  have hroom : s.sp.val < 16 := by omega
  refine ⟨_, exec_call_of_room nnn hroom, rfl, zextAddr_toNat nnn, fun k => ?_, frame_update_flow ..⟩
  simp only [Fin.getElem_fin, Vector.getElem_set, eq_comm (a := k.val)]

/-- Settles O16: the word 0000 decodes to NOP, so its step is the fetch's advance of PC alone. -/
theorem nopOnlyAdvancesPc : Obligations.NopOnlyAdvancesPc := by
  refine fun s => ⟨exec_nop s, fun hs hp hw => ?_⟩
  have hd : decodeWord (wordAtPc s) = .ok .nop := by rw [hw]; rfl
  refine ⟨advancePc s, (step_of_decodeWord hs hp hd).trans (exec_nop _), ?_, advancePc_frame s,
    report_of_decodeWord hs hp hd⟩
  rw [advancePc_pc_toNat]
  omega

/-- Settles O17. -/
theorem jpLoadsPc : Obligations.JpLoadsPc :=
  fun nnn s => ⟨_, exec_jp nnn s, zextAddr_toNat nnn, jumpTo_frame ..⟩

end Sys2Proof.Machine
end

section
/-! The statement of spec/42_skip.md on the four skips (R85 to R88). -/

namespace Sys2Proof.Machine

@[simp] theorem exec_seImm (x : Reg) (nn : Byte) (s : State) :
    exec (.seImm x nn) s = .next (skipIf (readV s x == nn) s) := rfl

@[simp] theorem exec_sneImm (x : Reg) (nn : Byte) (s : State) :
    exec (.sneImm x nn) s = .next (skipIf (readV s x != nn) s) := rfl

@[simp] theorem exec_seReg (x y : Reg) (s : State) :
    exec (.seReg x y) s = .next (skipIf (readV s x == readV s y) s) := rfl

@[simp] theorem exec_sneReg (x y : Reg) (s : State) :
    exec (.sneReg x y) s = .next (skipIf (readV s x != readV s y) s) := rfl

theorem skipIf_pc_toNat (c : Bool) (s : State) :
    (skipIf c s).pc.toNat = if c then (s.pc.toNat + 2) % 65536 else s.pc.toNat := by
  cases c with
  | false => rfl
  | true => exact advancePc_pc_toNat s

/-- The comparisons of the skips are those of the unsigned values. -/
theorem beq_iff_toNat_eq (a b : Byte) : (a == b) = true ↔ a.toNat = b.toNat :=
  beq_iff_eq.trans BitVec.toNat_inj.symm

theorem bne_iff_toNat_ne (a b : Byte) : (a != b) = true ↔ a.toNat ≠ b.toNat :=
  bne_iff_ne.trans (not_congr BitVec.toNat_inj.symm)

/-- An instruction that skips on a Boolean `c` adds 2 to PC exactly if the condition `c` decides holds, and changes
nothing else. -/
theorem completes_of_exec_skipIf {i : Instr} {s : State} {c : Bool} {p : Prop} [Decidable p]
    (he : exec i s = .next (skipIf c s)) (hc : c = true ↔ p) :
    Completes i s fun t =>
      t.pc.toNat = (if p then (s.pc.toNat + 2) % 65536 else s.pc.toNat) ∧ Frame [] [.pc] s t := by
  refine ⟨_, he, ?_, skipIf_frame c s⟩
  simp only [skipIf_pc_toNat, hc]

/-- Settles O21: all four are the one skip, each on its own comparison. -/
theorem skipsAddTwoToPcIfTheConditionHolds : Obligations.SkipsAddTwoToPcIfTheConditionHolds :=
  fun x y nn s =>
    ⟨completes_of_exec_skipIf (exec_seImm x nn s) (beq_iff_toNat_eq ..),
      completes_of_exec_skipIf (exec_sneImm x nn s) (bne_iff_toNat_ne ..),
      completes_of_exec_skipIf (exec_seReg x y s) (beq_iff_toNat_eq ..),
      completes_of_exec_skipIf (exec_sneReg x y s) (bne_iff_toNat_ne ..)⟩

end Sys2Proof.Machine
end

section
/-! The statements of spec/43_load_add_imm.md (R90 to R92). -/

namespace Sys2Proof.Machine

@[simp] theorem exec_ldImm (x : Reg) (nn : Byte) (s : State) : exec (.ldImm x nn) s = .next (writeV s x nn) := rfl

@[simp] theorem exec_addImm (x : Reg) (nn : Byte) (s : State) :
    exec (.addImm x nn) s = .next (writeV s x (readV s x + nn)) := rfl

@[simp] theorem exec_ldI (nnn : Addr) (s : State) : exec (.ldI nnn) s = .next (setI (zextAddr nnn) s) := rfl

/-- A load of I changes nothing but I. -/
theorem setI_frame (w : Word) (s : State) : Frame [] [.i] s (setI w s) :=
  ⟨fun k _ => readV_setI w s k, fun p hp => by cases p <;> simp_all [Part.same, latchOf]⟩

/-- Settles O22. -/
theorem ldImmLoadsTheByte : Obligations.LdImmLoadsTheByte :=
  fun x nn s => ⟨_, exec_ldImm x nn s, readV_writeV_same s x nn, writeV_frame s x nn⟩

/-- Settles O23: the one write of the instruction is V[X], and an 8-bit sum is the sum modulo 256. -/
theorem addImmWrapsAndLeavesTheFlag : Obligations.AddImmWrapsAndLeavesTheFlag := by
  refine fun x nn s => ⟨_, exec_addImm x nn s, ?_, writeV_frame ..⟩
  rw [readV_writeV_same]
  exact BitVec.toNat_add ..

/-- Settles O24. -/
theorem ldILoadsTheIndex : Obligations.LdILoadsTheIndex :=
  fun nnn s => ⟨_, exec_ldI nnn s, zextAddr_toNat nnn, setI_frame ..⟩

end Sys2Proof.Machine
end

section
/-! The statements of spec/44_alu.md on LD (R100) and on the laws of the arithmetic (R109). -/

namespace Sys2Proof.Machine

@[simp] theorem exec_ldReg (x y : Reg) (s : State) : exec (.ldReg x y) s = .next (writeV s x (readV s y)) := rfl

@[simp] theorem exec_orReg (x y : Reg) (s : State) :
    exec (.orReg x y) s = .next (writeV s x (readV s x ||| readV s y)) := rfl

@[simp] theorem exec_andReg (x y : Reg) (s : State) :
    exec (.andReg x y) s = .next (writeV s x (readV s x &&& readV s y)) := rfl

@[simp] theorem exec_xorReg (x y : Reg) (s : State) :
    exec (.xorReg x y) s = .next (writeV s x (readV s x ^^^ readV s y)) := rfl

/-! ## The flag writers: the order of their two writes, for every X and Y -/

theorem exec_addReg (x y : Reg) (s : State) :
    exec (.addReg x y) s =
      .next (writeFlag (writeV s x (BitVec.ofNat 8 (exactSum (readV s x) (readV s y))))
        (carryOut (readV s x) (readV s y))) := rfl

theorem exec_sub (x y : Reg) (s : State) :
    exec (.sub x y) s =
      let u := writeFlag s (strictlyGreater (readV s x) (readV s y))
      .next (writeV u x (readV u x - readV u y)) := rfl

theorem exec_subn (x y : Reg) (s : State) :
    exec (.subn x y) s =
      let u := writeFlag s (strictlyGreater (readV s y) (readV s x))
      .next (writeV u x (readV u y - readV u x)) := rfl

theorem exec_shr (x y : Reg) (s : State) :
    exec (.shr x y) s =
      let u := writeFlag s (lsb (readV s x))
      .next (writeV u x (readV u x >>> 1)) := rfl

theorem exec_shl (x y : Reg) (s : State) :
    exec (.shl x y) s =
      let u := writeFlag s (msb (readV s x))
      .next (writeV u x (readV u x <<< 1)) := rfl

/-! ## With registers other than VF the two writes do not meet -/

theorem readV_writeFlag_other (s : State) {k : Reg} (b : Bool) (h : k ≠ vf) : readV (writeFlag s b) k = readV s k :=
  readV_writeV_other s (flagByte b) h

theorem writeFlag_writeV_comm (s : State) {x : Reg} (r : Byte) (c : Bool) (hx : x ≠ vf) :
    writeFlag (writeV s x r) c = writeV (writeFlag s c) x r :=
  congrArg (fun v => { s with v := v }) (Vector.set_comm r (flagByte c) (Fin.val_ne_of_ne hx))

theorem readV_vf_writeV_writeFlag (s : State) {x : Reg} (c : Bool) (r : Byte) (hx : x ≠ vf) :
    readV (writeV (writeFlag s c) x r) vf = flagByte c := by
  rw [readV_writeV_other _ r hx.symm, readV_writeFlag, if_pos rfl]

theorem writeV_writeFlag_frame (s : State) (x : Reg) (c : Bool) (r : Byte) :
    Frame [x, vf] [] s (writeV (writeFlag s c) x r) :=
  have hflag : Frame [x, vf] [] s (writeFlag s c) := (writeV_frame s vf (flagByte c)).mono (by simp) (by simp)
  hflag.trans ((writeV_frame _ x r).mono (by simp) (by simp))

theorem exec_addReg_of_ne {x : Reg} (y : Reg) (s : State) (hx : x ≠ vf) :
    exec (.addReg x y) s =
      .next (writeV (writeFlag s (carryOut (readV s x) (readV s y))) x
        (BitVec.ofNat 8 (exactSum (readV s x) (readV s y)))) := by
  rw [exec_addReg, writeFlag_writeV_comm _ _ _ hx]

theorem exec_sub_of_ne {x y : Reg} (s : State) (hx : x ≠ vf) (hy : y ≠ vf) :
    exec (.sub x y) s =
      .next (writeV (writeFlag s (strictlyGreater (readV s x) (readV s y))) x (readV s x - readV s y)) := by
  simp only [exec_sub, readV_writeFlag_other s _ hx, readV_writeFlag_other s _ hy]

theorem exec_subn_of_ne {x y : Reg} (s : State) (hx : x ≠ vf) (hy : y ≠ vf) :
    exec (.subn x y) s =
      .next (writeV (writeFlag s (strictlyGreater (readV s y) (readV s x))) x (readV s y - readV s x)) := by
  simp only [exec_subn, readV_writeFlag_other s _ hx, readV_writeFlag_other s _ hy]

theorem exec_shr_of_ne {x : Reg} (y : Reg) (s : State) (hx : x ≠ vf) :
    exec (.shr x y) s = .next (writeV (writeFlag s (lsb (readV s x))) x (readV s x >>> 1)) := by
  simp only [exec_shr, readV_writeFlag_other s _ hx]

theorem exec_shl_of_ne {x : Reg} (y : Reg) (s : State) (hx : x ≠ vf) :
    exec (.shl x y) s = .next (writeV (writeFlag s (msb (readV s x))) x (readV s x <<< 1)) := by
  simp only [exec_shl, readV_writeFlag_other s _ hx]

/-! ## Results and flags as numbers -/

theorem toNat_ofNat_exactSum (a b : Byte) : (BitVec.ofNat 8 (exactSum a b)).toNat = (a.toNat + b.toNat) % 256 :=
  BitVec.toNat_ofNat ..

theorem toNat_byte_sub (a b : Byte) : (a - b).toNat = (a.toNat + 256 - b.toNat) % 256 := by
  have hb := b.isLt
  rw [BitVec.toNat_sub]
  omega

theorem toNat_byte_ushiftRight_one (a : Byte) : (a >>> 1).toNat = a.toNat / 2 := by
  rw [BitVec.toNat_ushiftRight, Nat.shiftRight_eq_div_pow, pow_one]

theorem toNat_byte_shiftLeft_one (a : Byte) : (a <<< 1).toNat = a.toNat * 2 % 256 := by
  rw [BitVec.toNat_shiftLeft, Nat.shiftLeft_eq, pow_one]

theorem carryOut_iff (a b : Byte) : carryOut a b = true ↔ a.toNat + b.toNat > 255 := decide_eq_true_iff

theorem strictlyGreater_iff (a b : Byte) : strictlyGreater a b = true ↔ a.toNat > b.toNat := decide_eq_true_iff

theorem lsb_toNat (a : Byte) : (lsb a).toNat = a.toNat % 2 := by
  rw [lsb, BitVec.getLsbD, Nat.toNat_testBit, pow_zero, Nat.div_one]

/-- Bit 7 is the quotient by 128, since a byte has no higher bit. -/
theorem msb_toNat (a : Byte) : (msb a).toNat = a.toNat / 128 := by
  have ha := a.isLt
  rw [msb, BitVec.getLsbD, Nat.toNat_testBit]
  omega

theorem flagByte_eq_ite {c : Bool} {p : Prop} [Decidable p] (hc : c = true ↔ p) :
    flagByte c = if p then 1 else 0 := by
  simp only [flagByte, hc]

@[simp] theorem flagByte_toNat (c : Bool) : (flagByte c).toNat = c.toNat := by cases c <;> rfl

/-! ## What the five flag writers and the three logic operations have in common -/

/-- The writes of VF and of another register V[X]: each keeps its value, and nothing else changes. -/
theorem completes_of_exec_flag {i : Instr} {s : State} {x : Reg} {c : Bool} {r : Byte} {R F : Byte → Prop}
    (hx : x ≠ vf) (he : exec i s = .next (writeV (writeFlag s c) x r)) (hr : R r) (hf : F (flagByte c)) :
    Completes i s fun t => R (readV t x) ∧ F (readV t vf) ∧ Frame [x, vf] [] s t := by
  refine ⟨_, he, ?_, ?_, writeV_writeFlag_frame s x c r⟩
  · rwa [readV_writeV_same]
  · rwa [readV_vf_writeV_writeFlag s c r hx]

/-- The flag of ADD, SUB and SUBN is 1 exactly if a condition `p` holds. -/
theorem completes_of_exec_flag_iff {i : Instr} {s : State} {x : Reg} {c : Bool} {r : Byte} {n : Nat} {p : Prop}
    [Decidable p] (hx : x ≠ vf) (he : exec i s = .next (writeV (writeFlag s c) x r)) (hr : r.toNat = n)
    (hc : c = true ↔ p) :
    Completes i s fun t =>
      (readV t x).toNat = n ∧ readV t vf = (if p then 1 else 0) ∧ Frame [x, vf] [] s t :=
  completes_of_exec_flag (R := (·.toNat = n)) (F := (· = if p then 1 else 0)) hx he hr (flagByte_eq_ite hc)

/-- The flag of SHR and SHL is a bit, given as a number `m`. -/
theorem completes_of_exec_flag_bit {i : Instr} {s : State} {x : Reg} {c : Bool} {r : Byte} {n m : Nat}
    (hx : x ≠ vf) (he : exec i s = .next (writeV (writeFlag s c) x r)) (hr : r.toNat = n) (hc : c.toNat = m) :
    Completes i s fun t =>
      (readV t x).toNat = n ∧ (readV t vf).toNat = m ∧ Frame [x, vf] [] s t :=
  completes_of_exec_flag (R := (·.toNat = n)) (F := (·.toNat = m)) hx he hr ((flagByte_toNat c).trans hc)

/-- One write of a register other than VF leaves VF. -/
theorem completes_of_exec_writeV {i : Instr} {s : State} {x : Reg} {r : Byte} (hx : x ≠ vf)
    (he : exec i s = .next (writeV s x r)) :
    Completes i s fun t => readV t x = r ∧ readV t vf = readV s vf :=
  ⟨_, he, readV_writeV_same s x r, readV_writeV_other s r hx.symm⟩

/-- Settles O27: away from VF the flag and the result are written side by side, whichever comes first, so each
instruction is its result and its flag read as numbers. -/
theorem arithmeticResultsAndFlags : Obligations.ArithmeticResultsAndFlags :=
  fun x y s hx =>
    ⟨completes_of_exec_flag_iff hx (exec_addReg_of_ne y s hx) (toNat_ofNat_exactSum ..) (carryOut_iff ..),
      fun hy => completes_of_exec_flag_iff hx (exec_sub_of_ne s hx hy) (toNat_byte_sub ..) (strictlyGreater_iff ..),
      fun hy => completes_of_exec_flag_iff hx (exec_subn_of_ne s hx hy) (toNat_byte_sub ..) (strictlyGreater_iff ..),
      completes_of_exec_flag_bit hx (exec_shr_of_ne y s hx) (toNat_byte_ushiftRight_one _) (lsb_toNat _),
      completes_of_exec_flag_bit hx (exec_shl_of_ne y s hx) (toNat_byte_shiftLeft_one _) (msb_toNat _),
      completes_of_exec_writeV hx (exec_orReg x y s),
      completes_of_exec_writeV hx (exec_andReg x y s),
      completes_of_exec_writeV hx (exec_xorReg x y s)⟩

/-- Settles O25. -/
theorem ldRegCopiesTheRegister : Obligations.LdRegCopiesTheRegister :=
  fun x y s => ⟨_, exec_ldReg x y s, readV_writeV_same s x (readV s y), writeV_frame s x (readV s y)⟩

end Sys2Proof.Machine
end

section
/-! The statement of spec/45_random.md on RND (R115). -/

namespace Sys2Proof.Machine

@[simp] theorem exec_rnd (x : Reg) (nn : Byte) (s : State) :
    exec (.rnd x nn) s = .next (writeV (takeDraw s) x (Config.rndIn s.draws &&& nn)) := rfl

/-- A draw changes nothing but the count of draws. -/
theorem takeDraw_frame (s : State) : Frame [] [.draws] s (takeDraw s) :=
  ⟨fun k _ => readV_takeDraw s k, fun p hp => by cases p <;> simp_all [Part.same, latchOf]⟩

/-- A masked byte has no bit outside its mask. -/
theorem and_and_not_mask (b nn : Byte) : b &&& nn &&& ~~~nn = 0 := by
  rw [BitVec.and_assoc, BitVec.and_not_self]
  exact BitVec.and_zero

/-- Settles O29: RND is a draw followed by one write of V[X], and the draw leaves every register. -/
theorem rndLoadsTheMaskedDraw : Obligations.RndLoadsTheMaskedDraw := by
  refine fun x nn s => ⟨_, exec_rnd x nn s, readV_writeV_same .., ?_, takeDraw_draws s, ?_⟩
  · rw [readV_writeV_same]
    exact and_and_not_mask ..
  · exact ((takeDraw_frame s).mono (by simp) (by simp)).trans ((writeV_frame _ x _).mono (by simp) (by simp))

end Sys2Proof.Machine
end

section
/-! The statement of spec/46_display.md on CLS (R120). -/

namespace Sys2Proof.Machine

@[simp] theorem exec_cls (s : State) : exec .cls s = .next (clearScreen s) := rfl

/-- Clearing the screen changes nothing but the framebuffer. -/
theorem clearScreen_frame (s : State) : Frame [] [.fb] s (clearScreen s) :=
  ⟨fun k _ => readV_clearScreen s k, fun p hp => by cases p <;> simp_all [Part.same, latchOf]⟩

/-- A cleared screen has no cell on, whatever was on before. -/
theorem cell_clearScreen (s : State) (k : Nat) : Screen.cell (clearScreen s).fb k = false := by
  rw [clearScreen_fb, cell_nil]

/-- Settles O31: CLS is the clearing of the screen, which reads as off everywhere and leaves every register, VF
included. -/
theorem clsTurnsAllCellsOff : Obligations.ClsTurnsAllCellsOff :=
  fun s => ⟨_, exec_cls s, cell_clearScreen s, clearScreen_frame s⟩

end Sys2Proof.Machine
end

section
/-! The statement of spec/60_exceptions.md on unrecognized words (R137). -/

namespace Sys2Proof.Machine

/-- A step on a word that does not decode is the fetch's advance of PC alone (R75). -/
theorem step_of_decodeWord_error {s : State} {e : Reject} (hs : Safe s) (hp : s.pc.toNat ≤ 0xFFE)
    (hd : decodeWord (wordAtPc s) = .error e) : step s = .next (advancePc s) := by
  rcases step_cases s with ⟨hh, -⟩ | ⟨-, ho, -⟩ | ⟨-, -, ⟨_, -, hstep⟩ | ⟨i, hi, -⟩⟩
  · simp [Safe, hh] at hs
  · omega
  · exact hstep
  · cases hd.symm.trans hi

/-- A step on a word that does not decode reports the word and the address it was fetched from (R145, D9). -/
theorem report_of_decodeWord_error {s : State} {e : Reject} (hs : Safe s) (hp : s.pc.toNat ≤ 0xFFE)
    (hd : decodeWord (wordAtPc s) = .error e) : report s = some ⟨wordAtPc s, s.pc⟩ := by
  simp only [Safe] at hs
  simp only [wordAtPc] at hd ⊢
  simp [report, hs, fetch_inside hp, reportOf, hd]

/-- Settles O8: the step is the advance of PC, which cannot wrap from 0xFFE down, and the report is there. -/
theorem unrecognizedWordIsReportedAndPassed : Obligations.UnrecognizedWordIsReportedAndPassed := by
  refine fun s e hs hp hd => ⟨advancePc s, step_of_decodeWord_error hs hp hd, ?_, advancePc_frame s, ?_⟩
  · rw [advancePc_pc_toNat]
    omega
  · rw [report_of_decodeWord_error hs hp hd]
    rfl

end Sys2Proof.Machine
end

section
/-! The statements of spec/60_exceptions.md on the host's `timer_tick` and `display` (R140, R143). -/

namespace Sys2Proof.Machine

/-- Counting down is the subtraction of one that stops at 0, as that of natural numbers does. -/
@[simp] theorem countDown_toNat (b : Byte) : (countDown b).toNat = b.toNat - 1 := by
  unfold countDown
  split
  next h => exact BitVec.toNat_sub_of_le (BitVec.le_def.mpr h)
  next h => omega

theorem timerTick_of_halted {s : State} (h : s.halt = true) : timerTick s = s := if_pos h

theorem timerTick_of_safe {s : State} (h : Safe s) :
    timerTick s = { s with dt := countDown s.dt, st := countDown s.st } := by
  simp only [Safe] at h
  simp [timerTick, h]

/-- New values for the timers leave every other part as it was. -/
theorem frame_update_timers (s : State) (dt st : Byte) : Frame [] [.dt, .st] s { s with dt := dt, st := st } :=
  ⟨fun _ _ => rfl, fun p hp => by cases p <;> simp_all [Part.same, latchOf]⟩

/-- Settles O36: outside a halt each timer is counted down by itself; while halted the operation is the identity. -/
theorem timerTickCountsDownToZero : Obligations.TimerTickCountsDownToZero := by
  refine fun s => ⟨fun hs => ?_, fun hh => congrArg Host.Outcome.next (timerTick_of_halted hh)⟩
  exact ⟨_, congrArg Host.Outcome.next (timerTick_of_safe hs), countDown_toNat s.dt, countDown_toNat s.st,
    frame_update_timers ..⟩

theorem display_length (s : State) : (display s).length = 2048 := by
  simp [display, Config.fbCells, Config.fbWidth, Config.fbHeight]

/-- Element `k` of the display is cell `k` of the framebuffer. -/
theorem display_getElem? (s : State) {k : Nat} (h : k < Config.fbCells) :
    (display s)[k]? = some (Screen.cell s.fb k) := by
  simp [display, h]

/-- Settles O38: the display lists the cells by index, and `y * 64 + x` is the index of the cell (x, y). -/
theorem displayGivesTheCellsInOrder : Obligations.DisplayGivesTheCellsInOrder :=
  fun s => ⟨_, rfl, display_length s, fun _ _ hx hy => display_getElem? s (cellIndex_lt hx hy), rfl⟩

end Sys2Proof.Machine
end

section
/-! The statements of spec/30_encoding.md: both round trips, the words without an instruction (R56), and the words the
spec writes out. -/

namespace Sys2Proof

theorem decodeWord_ofNibbles_iff (a b c d : Nibble) (i : Instr) :
    decodeWord (ofNibbles a b c d) = .ok i ↔ selectRow a b c d = some i := by
  simp [decodeWord_eq_ok_iff]

/-- The encoder's fields select the instruction again, since a field taken apart and put together is itself. -/
theorem decodeWord_encode (i : Instr) : decodeWord (encode i) = .ok i := by
  cases i with
  | nop | cls | ret => rfl
  | jp | call | ldI | seImm | sneImm | ldImm | addImm | rnd =>
    refine (decodeWord_ofNibbles_iff ..).mpr ?_
    simp [selectRow]
  | seReg | sneReg | drw =>
    refine (decodeWord_ofNibbles_iff ..).mpr ?_
    simp [selectRow, selectIfZero]
  | ldReg | orReg | andReg | xorReg | addReg | sub | shr | subn | shl =>
    exact (decodeWord_ofNibbles_iff ..).mpr rfl

/-- Settles O1: the word decodes to its instruction, and its two bytes decode as the word does. -/
theorem decodeEncodeRoundTrip : Obligations.DecodeEncodeRoundTrip := by
  refine fun i rest => ⟨decodeWord_encode i, ?_⟩
  rw [decode_wordBytes, decodeWord_encode]

/-- Settles O2, from the decoder's rows one by one. -/
theorem encodeDecodeRoundTrip : Obligations.EncodeDecodeRoundTrip := fun _ _ => encode_of_decodeWord

/-! ## The words that select no instruction -/

theorem decodeWord_eq_unrecognized_iff (w : Word) :
    decodeWord w = .error (.unrecognized w) ↔
      selectRow (nibble1 w) (nibble2 w) (nibble3 w) (nibble4 w) = none := by
  unfold decodeWord
  cases selectRow (nibble1 w) (nibble2 w) (nibble3 w) (nibble4 w) <;> simp

theorem selectFixed_eq_none_iff (b c d : Nibble) :
    selectFixed b c d = none ↔
      ¬(b = 0x0 ∧ c = 0x0 ∧ d = 0x0) ∧ ¬(b = 0x0 ∧ c = 0xE ∧ d = 0x0) ∧ ¬(b = 0x0 ∧ c = 0xE ∧ d = 0xE) := by
  unfold selectFixed
  split <;> simp_all

theorem selectIfZero_eq_none_iff (d : Nibble) (i : Instr) : selectIfZero d i = none ↔ d ≠ 0x0 := by
  simp [selectIfZero]

theorem selectAlu_eq_none_iff (x y : Reg) (d : Nibble) :
    selectAlu x y d = none ↔ d ∈ [0x8, 0x9, 0xA, 0xB, 0xC, 0xD, 0xF] := by
  obtain ⟨d⟩ := d
  fin_cases d <;> simp [selectAlu]

/-- The rows of R54 leave out the listed groups, by the major opcode. -/
theorem selectRow_eq_none_iff (a b c d : Nibble) :
    selectRow a b c d = none ↔
      (a = 0x0 ∧ selectFixed b c d = none) ∨ (a = 0x5 ∧ d ≠ 0x0) ∨
      (a = 0x8 ∧ d ∈ [0x8, 0x9, 0xA, 0xB, 0xC, 0xD, 0xF]) ∨ (a = 0x9 ∧ d ≠ 0x0) ∨ a = 0xB ∨ a = 0xE ∨ a = 0xF := by
  rw [← selectAlu_eq_none_iff (nibbleIndex b) (nibbleIndex c) d]
  obtain ⟨a⟩ := a
  fin_cases a <;> simp [selectRow, selectIfZero_eq_none_iff]

theorem eq_ofNibbles_iff (w : Word) (a b c d : Nibble) :
    w = ofNibbles a b c d ↔ nibble1 w = a ∧ nibble2 w = b ∧ nibble3 w = c ∧ nibble4 w = d := by
  refine ⟨fun h => by simp [h], fun ⟨h1, h2, h3, h4⟩ => ?_⟩
  rw [← h1, ← h2, ← h3, ← h4, ofNibbles_nibbles]

/-- Among the words with major opcode 0 the three full words are the ones `selectFixed` knows. -/
theorem selectFixed_eq_none_iff_word {w : Word} (h : nibble1 w = 0x0) :
    selectFixed (nibble2 w) (nibble3 w) (nibble4 w) = none ↔ w ≠ 0x0000 ∧ w ≠ 0x00E0 ∧ w ≠ 0x00EE := by
  have hw := eq_ofNibbles_iff w 0x0
  simp only [h, true_and] at hw
  rw [selectFixed_eq_none_iff, ← hw, ← hw, ← hw]
  rfl

/-- Settles O4: the dispatch leaves out the listed groups, and within group 0 the fields name the three full words. -/
theorem unrecognizedWordsAreTheListedGroups : Obligations.UnrecognizedWordsAreTheListedGroups := by
  intro w
  rw [decodeWord_eq_unrecognized_iff, selectRow_eq_none_iff]
  exact or_congr_left (and_congr_right selectFixed_eq_none_iff_word)

/-- Settles O5: each word is decoded by the model. -/
theorem annotatedWordsDecode : Obligations.AnnotatedWordsDecode := ⟨rfl, rfl, rfl, rfl, rfl, rfl, rfl, rfl⟩

end Sys2Proof
end

section
/-! The statements of spec/40_cycle.md and spec/60_exceptions.md on the tick: what a step does in each of its cases, and
when it reports (R70 to R75, R132 to R136). -/

namespace Sys2Proof.Machine

theorem step_of_halted {s : State} (h : s.halt = true) : step s = .next s := if_pos h

theorem report_of_halted {s : State} (h : s.halt = true) : report s = none := if_pos h

/-- A fetch out of range emits no report (R136). -/
theorem report_of_fetch_outside {s : State} (h : 0xFFE < s.pc.toNat) : report s = none := by
  unfold report
  rw [fetch_outside h]
  split <;> rfl

theorem decode_pair_eq_ok_iff (hi lo : Byte) (i : Instr) :
    decode [hi, lo] = .ok (i, []) ↔ decodeWord (joinBytes hi lo) = .ok i := by
  cases h : decodeWord (joinBytes hi lo) <;> simp [decode, h]

/-- Settles O7. -/
theorem stepRunsTheDecodedInstruction : Obligations.StepRunsTheDecodedInstruction := by
  intro s i hs hp hd
  rw [decode_pair_eq_ok_iff] at hd
  exact ⟨step_of_decodeWord hs hp hd, report_of_decodeWord hs hp hd⟩

/-- Settles O9: of the cases of a tick (halted, fetch out of range, decoded, not decoded) only the last reports. -/
theorem reportCarriesWordAndAddress : Obligations.ReportCarriesWordAndAddress := by
  refine fun s r => ⟨fun h => ?_, fun ⟨hs, hp, hw, ha, e, he⟩ => ?_⟩
  · have hs : Safe s := Bool.eq_false_iff.mpr fun hh => by simp [report_of_halted hh] at h
    have hp : s.pc.toNat ≤ 0xFFE := Nat.le_of_not_lt fun hp => by simp [report_of_fetch_outside hp] at h
    cases hd : decodeWord (wordAtPc s) with
    | ok i => simp [report_of_decodeWord hs hp hd] at h
    | error e =>
      rw [report_of_decodeWord_error hs hp hd] at h
      cases h
      exact ⟨hs, hp, rfl, rfl, e, rfl⟩
  · rw [report_of_decodeWord_error hs hp he, ← hw, ← ha]

/-- The information of a fetch's fault: the first address out of range is PC, except that from 0xFFF only the second
byte is out of range (R33). -/
theorem firstOutside_eq {pc : Word} (h : 0xFFE < pc.toNat) :
    BitVec.ofNat 16 (max pc.toNat 4096) = if pc.toNat = 0xFFF then 0x1000 else pc := by
  split
  next e => rw [e]; rfl
  next e => rw [show max pc.toNat 4096 = pc.toNat by omega, BitVec.ofNat_toNat, BitVec.setWidth_eq]

/-- Settles O10: the step is the fatal entry and nothing else. -/
theorem fetchOutOfRangeHalts : Obligations.FetchOutOfRangeHalts := by
  refine fun s hs hp => ⟨_, step_fetch_outside hs hp, raiseFatal_halt .., raiseFatal_haltCause .., ?_,
    raiseFatal_frame .., report_of_fetch_outside hp⟩
  rw [raiseFatal_haltInfo, firstOutside_eq hp]

/-- Settles O12. -/
theorem fatalEntryWritesOnlyTheLatch : Obligations.FatalEntryWritesOnlyTheLatch :=
  fun f s => ⟨rfl, raiseFatal_frame f s⟩

/-- A state that a step leaves as it is, a run of any length leaves as it is. -/
theorem run_of_step_self (M : Host.Core) {s : M.State} (h : M.step s = .next s) (n : Nat) : M.run n s = .next s := by
  induction n with
  | zero => rfl
  | succ n ih => rw [Host.Core.run, h]; exact ih

/-- Settles O11. -/
theorem haltedTicksChangeNothing : Obligations.HaltedTicksChangeNothing :=
  fun _ n h => ⟨run_of_step_self core (step_of_halted h) n, report_of_halted h⟩

theorem safeRun_of_step_self {s : State} (hs : Safe s) (h : step s = .next s) (n : Nat) : SafeRun n s s := by
  induction n with
  | zero => exact ⟨hs, rfl⟩
  | succ n ih => exact ⟨hs, s, h, ih⟩

/-- A jump back to where PC stood undoes an advance of PC. -/
theorem jumpTo_advancePc_self {s : State} {w : Word} (h : s.pc = w) : jumpTo w (advancePc s) = s := by
  subst h
  rfl

/-- Settles O14: the fetch's advance of PC is undone by the jump, so one step leaves the state, and so does a run. -/
theorem jumpToItselfIsAFixedPoint : Obligations.JumpToItselfIsAFixedPoint := by
  intro s nnn n hs hpc hp hd
  have hw : s.pc = zextAddr nnn := BitVec.eq_of_toNat_eq (hpc.trans (zextAddr_toNat nnn).symm)
  have hstep : step s = .next s := by
    rw [step_of_decodeWord hs hp hd, exec_jp, jumpTo_advancePc_self hw]
  exact ⟨safeRun_of_step_self hs hstep n, run_of_step_self core hstep n⟩

/-- Every instruction answers a next state: no arm of `exec` stops or refuses. -/
theorem exec_completes (i : Instr) (s : State) : ∃ t, exec i s = .next t := by
  cases i <;> exact ⟨_, rfl⟩

/-- Settles O13: of the cases of a step only the executed instruction could fail to complete, and none does. -/
theorem everyInstructionAndStepCompletes : Obligations.EveryInstructionAndStepCompletes := by
  refine ⟨exec_completes, fun s => ?_⟩
  rcases step_cases s with ⟨-, h⟩ | ⟨-, -, h⟩ | ⟨-, -, ⟨e, -, h⟩ | ⟨i, -, h⟩⟩
  · exact ⟨_, h⟩
  · exact ⟨_, h⟩
  · exact ⟨_, h⟩
  · rw [h]
    exact exec_completes i _

/-- Settles O15: a tick that reports passes an unrecognized word, which leaves HALT as it was. -/
theorem fatalErrorAndReportExcludeEachOther : Obligations.FatalErrorAndReportExcludeEachOther := by
  intro s t hs hstep ht
  by_contra hr
  obtain ⟨r, hr⟩ := Option.ne_none_iff_exists'.mp hr
  obtain ⟨-, hp, -, -, e, he⟩ := (reportCarriesWordAndAddress s r).mp hr
  rw [step_of_decodeWord_error hs hp he] at hstep
  cases hstep
  exact Bool.noConfusion (hs.symm.trans ht)

end Sys2Proof.Machine
end

section
/-! The statements of spec/41_flow.md on RET (R81), alone and after CALL. -/

namespace Sys2Proof.Machine

theorem exec_ret (s : State) : exec .ret s = .next (orFatal s (popPc s)) := rfl

theorem exec_ret_of_empty {s : State} (h : s.sp.val = 0) :
    exec .ret s = .next (raiseFatal ⟨.stackUnderflow, 0⟩ s) := by
  rcases ret_cases s with ⟨-, e⟩ | ⟨n, -, hs, -⟩
  · rw [exec_ret, e]
  · omega

theorem exec_ret_of_entry {s : State} {n : Nat} (hn : n < 16) (h : s.sp.val = n + 1) :
    exec .ret s = .next { s with sp := ⟨n, by omega⟩, pc := s.stack[n] } := by
  rcases ret_cases s with ⟨h0, -⟩ | ⟨m, _, hm, e⟩
  · omega
  · obtain rfl : m = n := by omega
    rw [exec_ret, e]

/-- New values for PC and SP leave every other part as it was. -/
theorem frame_update_pc_sp (s : State) (sp : Fin 17) (pc : Word) :
    Frame [] [.pc, .sp] s { s with sp := sp, pc := pc } :=
  ⟨fun _ _ => rfl, fun p hp => by cases p <;> simp_all [Part.same, latchOf]⟩

/-- Settles O19, from the two cases of the pop. -/
theorem retPopsTheReturnAddress : Obligations.RetPopsTheReturnAddress :=
  fun _ => ⟨exec_ret_of_empty, fun k hk => ⟨_, exec_ret_of_entry k.isLt hk, rfl, rfl, frame_update_pc_sp ..⟩⟩

/-- Settles O20: the CALL wrote its PC at the slot the RET pops. -/
theorem callThenRetReturns : Obligations.CallThenRetReturns := by
  intro nnn s t u hsp ht husp hustack
  have hroom : s.sp.val < 16 := by omega
  rw [exec_call_of_room nnn hroom] at ht
  cases ht
  have hu : u.sp.val = s.sp.val + 1 := by rw [husp]
  refine ⟨_, exec_ret_of_entry hroom hu, ?_, rfl, frame_update_pc_sp ..⟩
  simp [hustack]

end Sys2Proof.Machine
end

section
/-! The statements of spec/44_alu.md on the logic operations (R101 to R103) and on the flag writers that name VF
(R110). -/

namespace Sys2Proof.Machine

/-- An instruction that is one write of V[X] leaves there what it wrote, and changes nothing else. -/
theorem completes_of_exec_write {i : Instr} {s : State} {x : Reg} {r : Byte} {R : Byte → Prop}
    (he : exec i s = .next (writeV s x r)) (hr : R r) :
    Completes i s fun t => R (readV t x) ∧ Frame [x] [] s t := by
  refine ⟨_, he, ?_, writeV_frame s x r⟩
  rwa [readV_writeV_same]

/-- As `completes_of_exec_write`, for a written byte given bit by bit. -/
theorem completes_of_exec_bits {i : Instr} {s : State} {x : Reg} {r : Byte} {f : Nat → Bool}
    (he : exec i s = .next (writeV s x r)) (hr : ∀ b, r.getLsbD b = f b) :
    Completes i s fun t => (∀ b, (readV t x).getLsbD b = f b) ∧ Frame [x] [] s t :=
  completes_of_exec_write (R := fun r => ∀ b, r.getLsbD b = f b) he hr

/-- Settles O26: each is one write of V[X], of a byte computed bit by bit. -/
theorem logicIsBitwiseAndLeavesTheFlag : Obligations.LogicIsBitwiseAndLeavesTheFlag :=
  fun x y s =>
    ⟨completes_of_exec_bits (exec_orReg x y s) fun _ => BitVec.getLsbD_or,
      completes_of_exec_bits (exec_andReg x y s) fun _ => BitVec.getLsbD_and,
      completes_of_exec_bits (exec_xorReg x y s) fun _ => BitVec.getLsbD_xor⟩

/-! ## The forms that name VF: the second write reads, or hides, the first -/

theorem writeV_writeV_same (s : State) (x : Reg) (a b : Byte) : writeV (writeV s x a) x b = writeV s x b := by
  simp [writeV]

theorem writeV_vf_writeFlag (s : State) (c : Bool) (r : Byte) : writeV (writeFlag s c) vf r = writeV s vf r :=
  writeV_writeV_same ..

theorem readV_vf_writeFlag (s : State) (c : Bool) : readV (writeFlag s c) vf = flagByte c :=
  readV_writeV_same s vf (flagByte c)

/-- ADD to VF: the carry is written last and survives. -/
theorem exec_addReg_vf (y : Reg) (s : State) :
    exec (.addReg vf y) s = .next (writeV s vf (flagByte (carryOut (readV s vf) (readV s y)))) := by
  rw [exec_addReg, writeFlag, writeV_writeV_same]

theorem exec_sub_vf {y : Reg} (s : State) (hy : y ≠ vf) :
    exec (.sub vf y) s =
      .next (writeV s vf (flagByte (strictlyGreater (readV s vf) (readV s y)) - readV s y)) := by
  simp only [exec_sub, writeV_vf_writeFlag, readV_vf_writeFlag, readV_writeFlag_other s _ hy]

theorem exec_subn_vf {y : Reg} (s : State) (hy : y ≠ vf) :
    exec (.subn vf y) s =
      .next (writeV s vf (readV s y - flagByte (strictlyGreater (readV s y) (readV s vf)))) := by
  simp only [exec_subn, writeV_vf_writeFlag, readV_vf_writeFlag, readV_writeFlag_other s _ hy]

theorem exec_sub_from_vf {x : Reg} (s : State) (hx : x ≠ vf) :
    exec (.sub x vf) s =
      let c := strictlyGreater (readV s x) (readV s vf)
      .next (writeV (writeFlag s c) x (readV s x - flagByte c)) := by
  simp only [exec_sub, readV_vf_writeFlag, readV_writeFlag_other s _ hx]

theorem exec_subn_from_vf {x : Reg} (s : State) (hx : x ≠ vf) :
    exec (.subn x vf) s =
      let c := strictlyGreater (readV s vf) (readV s x)
      .next (writeV (writeFlag s c) x (flagByte c - readV s x)) := by
  simp only [exec_subn, readV_vf_writeFlag, readV_writeFlag_other s _ hx]

theorem exec_sub_vf_vf (s : State) : exec (.sub vf vf) s = .next (writeV s vf 0) := by
  simp only [exec_sub, writeV_vf_writeFlag, BitVec.sub_self]
  rfl

theorem exec_subn_vf_vf (s : State) : exec (.subn vf vf) s = .next (writeV s vf 0) := by
  simp only [exec_subn, writeV_vf_writeFlag, BitVec.sub_self]
  rfl

theorem flagByte_ushiftRight_one (c : Bool) : flagByte c >>> 1 = 0 := by cases c <;> rfl

theorem flagByte_shiftLeft_one (c : Bool) : flagByte c <<< 1 = if c then 2 else 0 := by cases c <;> rfl

theorem exec_shr_vf (z : Reg) (s : State) : exec (.shr vf z) s = .next (writeV s vf 0) := by
  simp only [exec_shr, writeV_vf_writeFlag, readV_vf_writeFlag, flagByte_ushiftRight_one]

theorem exec_shl_vf (z : Reg) (s : State) :
    exec (.shl vf z) s = .next (writeV s vf (if msb (readV s vf) then 2 else 0)) := by
  simp only [exec_shl, writeV_vf_writeFlag, readV_vf_writeFlag, flagByte_shiftLeft_one]

/-- Bit 7 is set from 128 up: as a number it is the quotient by 128, at most 1. -/
theorem msb_iff (a : Byte) : msb a = true ↔ a.toNat ≥ 128 := by
  have ha := a.isLt
  rw [← Bool.toNat_eq_one, msb_toNat]
  omega

theorem flagByte_toNat_of_iff {c : Bool} {p : Prop} [Decidable p] (hc : c = true ↔ p) :
    (flagByte c).toNat = if p then 1 else 0 := by
  rw [flagByte_eq_ite hc]
  split <;> rfl

/-- The writes of VF, by a condition `p`, and of another register: as `completes_of_exec_flag_iff`, VF first. -/
theorem completes_of_exec_flag_first {i : Instr} {s : State} {x : Reg} {c : Bool} {r : Byte} {n : Nat} {p : Prop}
    [Decidable p] (hx : x ≠ vf) (he : exec i s = .next (writeV (writeFlag s c) x r)) (hc : c = true ↔ p)
    (hr : r.toNat = n) :
    Completes i s fun t =>
      readV t vf = (if p then 1 else 0) ∧ (readV t x).toNat = n ∧ Frame [x, vf] [] s t := by
  obtain ⟨t, ht, hn, hp, hframe⟩ := completes_of_exec_flag_iff hx he hr hc
  exact ⟨t, ht, hp, hn, hframe⟩

/-- Settles O28: with VF as X only the last write is seen; with VF as Y the operand is the flag just written. -/
theorem vfAsOperandFollowsTheWrittenOrder : Obligations.VfAsOperandFollowsTheWrittenOrder := by
  intro x y s hx hy
  refine ⟨?addVf, ?addVfVf, ?subVf, ?subFromVf, ?subVfVf, ?subnVf, ?subnFromVf, ?subnVfVf, fun z => ?shrVf,
    fun z => ?shlVf⟩
  case addVf =>
    exact completes_of_exec_write (R := (· = _)) (exec_addReg_vf y s) (flagByte_eq_ite (carryOut_iff ..))
  case addVfVf =>
    refine completes_of_exec_write (R := (· = _)) (exec_addReg_vf vf s) (flagByte_eq_ite ?_)
    rw [carryOut_iff, Nat.mul_two]
  case subVf =>
    refine completes_of_exec_write (R := (·.toNat = _)) (exec_sub_vf s hy) ?_
    rw [toNat_byte_sub, flagByte_toNat_of_iff (strictlyGreater_iff ..)]
  case subFromVf =>
    refine completes_of_exec_flag_first hx (exec_sub_from_vf s hx) (strictlyGreater_iff ..) ?_
    rw [toNat_byte_sub, flagByte_toNat_of_iff (strictlyGreater_iff ..)]
  case subVfVf => exact completes_of_exec_write (R := (· = _)) (exec_sub_vf_vf s) rfl
  case subnVf =>
    refine completes_of_exec_write (R := (·.toNat = _)) (exec_subn_vf s hy) ?_
    rw [toNat_byte_sub, flagByte_toNat_of_iff (strictlyGreater_iff ..)]
  case subnFromVf =>
    refine completes_of_exec_flag_first hx (exec_subn_from_vf s hx) (strictlyGreater_iff ..) ?_
    rw [toNat_byte_sub, flagByte_toNat_of_iff (strictlyGreater_iff ..)]
  case subnVfVf => exact completes_of_exec_write (R := (· = _)) (exec_subn_vf_vf s) rfl
  case shrVf => exact completes_of_exec_write (R := (· = _)) (exec_shr_vf z s) rfl
  case shlVf =>
    refine completes_of_exec_write (R := (· = _)) (exec_shl_vf z s) ?_
    simp only [msb_iff]

end Sys2Proof.Machine
end

section
/-! The statement of spec/46_display.md on the loops of DRW (R121 to R125): the model's rows and pixels are the source's
loops, turn by turn. -/

namespace Sys2Proof.Machine

theorem exec_drw (x y n : Fin 16) (s : State) :
    exec (.drw x y n) s = .next (drawRows x y n.val 0 (writeFlag s false)) := rfl

/-- Whether the sprite's bit at row `rc.1`, column `rc.2` is set and falls on the screen. -/
def pixelLands (x y : Reg) (s : State) (rc : Nat × Nat) : Bool :=
  (Memory.read s.mem (s.i.toNat + rc.1)).getLsbD (7 - rc.2) &&
    decide ((readV s x).toNat + rc.2 < Config.fbWidth ∧ (readV s y).toNat + rc.1 < Config.fbHeight)

/-- The cell on which the sprite's bit at row `rc.1`, column `rc.2` falls. -/
def pixelCell (x y : Reg) (s : State) (rc : Nat × Nat) : Nat :=
  cellIndex ((readV s x).toNat + rc.2) ((readV s y).toNat + rc.1)

theorem pixelLands_iff (x y : Reg) (s : State) (rc : Nat × Nat) :
    pixelLands x y s rc = true ↔
      (Memory.read s.mem (s.i.toNat + rc.1)).getLsbD (7 - rc.2) = true ∧
        (readV s x).toNat + rc.2 < Config.fbWidth ∧ (readV s y).toNat + rc.1 < Config.fbHeight := by
  simp [pixelLands]

theorem pixelLands_congr {x y : Reg} {s t : State} (hx : readV t x = readV s x) (hy : readV t y = readV s y)
    (hm : t.mem = s.mem) (hi : t.i = s.i) : pixelLands x y t = pixelLands x y s := by
  funext rc
  simp only [pixelLands, hx, hy, hm, hi]

theorem pixelCell_congr {x y : Reg} {s t : State} (hx : readV t x = readV s x) (hy : readV t y = readV s y) :
    pixelCell x y t = pixelCell x y s := by
  funext rc
  simp only [pixelCell, hx, hy]

theorem drawPixel_eq (x y : Reg) (r c : Nat) (s : State) :
    drawPixel x y r (Memory.read s.mem (s.i.toNat + r)) s c =
      if pixelLands x y s (r, c) then hitCell (pixelCell x y s (r, c)) s else s := by
  simp only [drawPixel, pixelLands_iff, pixelCell, ge_iff_le, ← not_lt, ← not_and_or, ite_not]
  exact (ite_and ..).symm

/-- A bit is set exactly if it is 1 after shifting it down and masking. -/
theorem ushiftRight_and_one_iff (b : Byte) (k : Nat) : (b >>> k) &&& 1#8 = 1#8 ↔ b.getLsbD k = true := by
  have h : (b >>> k).getLsbD 0 = b.getLsbD k := by simp
  rw [← h, BitVec.and_one_eq_setWidth_ofBool_getLsbD]
  cases (b >>> k).getLsbD 0 <;> decide

/-- The effect of the source's inner statements on a cell that is hit. -/
theorem hitCell_eq (k : Nat) (s : State) :
    hitCell k s =
      if Screen.cell s.fb k then { writeV s vf 1 with fb := Screen.toggle s.fb k }
      else { s with fb := Screen.toggle s.fb k } := by
  unfold hitCell
  split <;> rfl

theorem sourcePixel_eq (x y : Reg) (s : State) (rc : Nat × Nat) :
    sourcePixel x y s rc = if pixelLands x y s rc then hitCell (pixelCell x y s rc) s else s := by
  simp only [sourcePixel, ushiftRight_and_one_iff, pixelLands_iff, hitCell_eq, ge_iff_le, ← not_lt, ← not_and_or,
    ite_not]
  exact (ite_and ..).symm

/-- One turn of the source's outer loop. -/
def sourceRow (x y : Reg) (s : State) (r : Nat) : State :=
  ((List.range 8).map fun c => (r, c)).foldl (sourcePixel x y) s

theorem sourceDraw_eq_foldl_row (x y : Reg) (rows : Nat) (s : State) :
    sourceDraw x y rows s = (List.range rows).foldl (sourceRow x y) (writeV s vf 0) :=
  List.foldl_flatMap

theorem drawPixel_i (x y : Reg) (r : Nat) (sprite : Byte) (s : State) (c : Nat) :
    (drawPixel x y r sprite s c).i = s.i := (drawPixel_frame x y r sprite s c).2 .i (by simp)

theorem drawPixel_mem (x y : Reg) (r : Nat) (sprite : Byte) (s : State) (c : Nat) :
    (drawPixel x y r sprite s c).mem = s.mem := by
  rcases drawPixel_cases x y r sprite s c with e | ⟨-, -, -, e⟩
  · rw [e]
  · rw [e, hitCell_mem]

theorem drawRow_i (x y : Reg) (r : Nat) (sprite : Byte) (s : State) : (drawRow x y r sprite s).i = s.i :=
  (drawRow_frame x y r sprite s).2 .i (by simp)

/-- The model reads a row's sprite byte once, the source at each column: no pixel changes it. -/
theorem drawRow_eq_sourceRow (x y : Reg) (r : Nat) (s : State) :
    drawRow x y r (Memory.read s.mem (s.i.toNat + r)) s = sourceRow x y s r := by
  rw [drawRow, sourceRow, List.foldl_map]
  generalize List.range 8 = cols
  induction cols generalizing s with
  | nil => rfl
  | cons c cols ih =>
    have hpixel := (drawPixel_eq x y r c s).trans (sourcePixel_eq x y s (r, c)).symm
    simp only [List.foldl_cons]
    rw [← hpixel, ← ih, drawPixel_i, drawPixel_mem]

/-- The rows that are in memory are drawn as the source's outer loop draws them. -/
theorem drawRows_eq_foldl {x y : Reg} {left r : Nat} {s : State} (h : s.i.toNat + r + left ≤ 4096 ∨ left = 0) :
    drawRows x y left r s = (List.range' r left).foldl (sourceRow x y) s := by
  induction left generalizing r s with
  | zero => rfl
  | succ left ih =>
    simp only [drawRows, memRead_inside (show s.i.toNat + r ≤ 4095 by omega), List.range'_succ, List.foldl_cons]
    rw [ih (by rw [drawRow_i]; omega), drawRow_eq_sourceRow]

/-- The first row past the end of memory is fatal, after the rows before it. -/
theorem drawRows_eq_raiseFatal {x y : Reg} {left r : Nat} {s : State} (h : 4096 < s.i.toNat + r + left)
    (hleft : left ≠ 0) :
    drawRows x y left r s =
      raiseFatal ⟨.memOob, BitVec.ofNat 16 (max (s.i.toNat + r) 4096)⟩
        ((List.range' r (4096 - (s.i.toNat + r))).foldl (sourceRow x y) s) := by
  induction left generalizing r s with
  | zero => exact absurd rfl hleft
  | succ left ih =>
    by_cases hr : s.i.toNat + r ≤ 4095
    · have hrest : 4096 - (s.i.toNat + r) = 4096 - (s.i.toNat + (r + 1)) + 1 := by omega
      simp only [drawRows, memRead_inside hr, hrest, List.range'_succ, List.foldl_cons]
      rw [ih (by rw [drawRow_i]; omega) (by omega), drawRow_i, drawRow_eq_sourceRow]
      rw [show max (s.i.toNat + (r + 1)) 4096 = max (s.i.toNat + r) 4096 by omega]
    · have hnone : 4096 - (s.i.toNat + r) = 0 := by omega
      simp only [drawRows, memRead_outside (show 4095 < s.i.toNat + r by omega), hnone]
      rw [show max (s.i.toNat + r) 4096 = s.i.toNat + r by omega]
      rfl

theorem exec_drw_inside {x y n : Fin 16} {s : State} (h : s.i.toNat + n.val ≤ 4096 ∨ n.val = 0) :
    exec (.drw x y n) s = .next (sourceDraw x y n.val s) := by
  rw [exec_drw, drawRows_eq_foldl h, sourceDraw_eq_foldl_row, List.range_eq_range']
  rfl

theorem exec_drw_outside {x y n : Fin 16} {s : State} (h : 4096 < s.i.toNat + n.val) (hn : n.val ≠ 0) :
    exec (.drw x y n) s = .next (raiseFatal ⟨.memOob, BitVec.ofNat 16 (max s.i.toNat 4096)⟩
      (sourceDraw x y (4096 - s.i.toNat) s)) := by
  rw [exec_drw, drawRows_eq_raiseFatal h hn, sourceDraw_eq_foldl_row, List.range_eq_range']
  rfl

/-- Settles O32: the model's recursion over rows is the source's loop over the rows in memory, followed by the fatal
error if a row is left. -/
theorem drwFollowsTheSourceStatements : Obligations.DrwFollowsTheSourceStatements :=
  fun _ _ _ _ => ⟨exec_drw_inside, fun ⟨h, hn⟩ => exec_drw_outside h hn⟩

end Sys2Proof.Machine
end

section
/-! The frame of DRW (spec/46_display.md, flags and exceptions), for every form. -/

namespace Sys2Proof.Machine

/-- A property every pixel and every fatal error keep, the rows keep. -/
theorem drawRows_induction {P : State → Prop} (x y : Reg)
    (hp : ∀ r sprite s c, P s → P (drawPixel x y r sprite s c)) (hf : ∀ f s, P s → P (raiseFatal f s))
    (left r : Nat) (s : State) (h : P s) : P (drawRows x y left r s) := by
  induction left generalizing r s with
  | zero => exact h
  | succ left ih =>
    unfold drawRows
    split
    · exact hf _ s h
    · exact ih _ _ (drawRow_induction x y r _ (hp r _) s h)

/-- VF holds a flag: 0 or 1. -/
def VfIsFlag (s : State) : Prop := readV s vf = 0 ∨ readV s vf = 1

theorem drawPixel_vfIsFlag (x y : Reg) (r : Nat) (sprite : Byte) (s : State) (c : Nat) (h : VfIsFlag s) :
    VfIsFlag (drawPixel x y r sprite s c) := by
  rcases drawPixel_cases x y r sprite s c with e | ⟨-, -, -, e⟩
  · rwa [e]
  · rw [e, VfIsFlag, hitCell_vf]
    split
    · exact .inr rfl
    · exact h

theorem drawRows_vfIsFlag (x y : Reg) (left r : Nat) (s : State) (h : VfIsFlag s) :
    VfIsFlag (drawRows x y left r s) :=
  drawRows_induction x y (drawPixel_vfIsFlag x y) (fun _ _ h => h) left r s h

theorem writeFlag_frame (s : State) (c : Bool) : Frame [vf] [] s (writeFlag s c) := writeV_frame s vf (flagByte c)

/-- DRW changes nothing but VF, the framebuffer and, at a row out of memory, the latch. -/
theorem drw_frame (x y : Reg) (n : Nat) (s : State) :
    Frame [vf] [.fb, .latch] s (drawRows x y n 0 (writeFlag s false)) :=
  ((writeFlag_frame s false).mono (by simp) (by simp)).trans (drawRows_frame ..)

/-- Settles O34. -/
theorem drwFrame : Obligations.DrwFrame := by
  refine fun x y n s => ⟨_, exec_drw x y n s, ?flag, drw_frame .., fun h => ?latch, fun h => ?noRow⟩
  case flag => exact drawRows_vfIsFlag _ _ _ _ _ (.inl (readV_vf_writeFlag s false))
  case latch =>
    rcases drawRows_latch x y n.val 0 (writeFlag s false) with ⟨-, e⟩ | ⟨hout, hn, -⟩
    · exact e
    · rcases h with h | h
      · exact absurd hout (Nat.not_lt.mpr h)
      · exact absurd h hn
  case noRow =>
    rw [h]
    exact ⟨readV_vf_writeFlag s false, writeFlag_frame s false⟩

end Sys2Proof.Machine
end

section
/-! The closed form of DRW (spec/46_display.md R121 to R124) when its coordinates are not held in VF: the cells the
sprite covers, each hit once. -/

namespace Sys2Proof.Machine

theorem readV_hitCell_other (k : Nat) (s : State) {j : Reg} (h : j ≠ vf) : readV (hitCell k s) j = readV s j :=
  (hitCell_frame k s).1 j (by simpa using h)

theorem hitCell_i (k : Nat) (s : State) : (hitCell k s).i = s.i := (hitCell_frame k s).2 .i (by simp)

/-! ## Hitting the cells of a list, one after the other -/

/-- Each cell of the list hit in turn. -/
def hitCells (ks : List Nat) (s : State) : State := ks.foldl (fun t k => hitCell k t) s

theorem hitCells_cons (k : Nat) (ks : List Nat) (s : State) : hitCells (k :: ks) s = hitCells ks (hitCell k s) := rfl

theorem hitCells_frame (ks : List Nat) (s : State) : Frame [vf] [.fb] s (hitCells ks s) := by
  induction ks generalizing s with
  | nil => exact frame_refl _ _ s
  | cons k ks ih => exact (hitCell_frame k s).trans (ih _)

theorem hitCells_mem (ks : List Nat) (s : State) : (hitCells ks s).mem = s.mem := by
  induction ks generalizing s with
  | nil => rfl
  | cons k ks ih => rw [hitCells_cons, ih, hitCell_mem]

/-- Cells that differ are each flipped once. -/
theorem cell_hitCells {ks : List Nat} (hks : ks.Nodup) (s : State) (j : Nat) :
    Screen.cell (hitCells ks s).fb j = (Screen.cell s.fb j != decide (j ∈ ks)) := by
  induction ks generalizing s with
  | nil => simp [hitCells]
  | cons k ks ih =>
    obtain ⟨hk, hks⟩ := List.nodup_cons.mp hks
    rw [hitCells_cons, ih hks, hitCell_cell]
    by_cases hj : j = k
    · subst hj; simp [hk]
    · simp [hj]

/-- VF becomes 1 if a cell was on, and is else left: no hit turns a later cell of the list on or off. -/
theorem readV_vf_hitCells {ks : List Nat} (hks : ks.Nodup) (s : State) :
    readV (hitCells ks s) vf = if ∃ k ∈ ks, Screen.cell s.fb k = true then 1 else readV s vf := by
  induction ks generalizing s with
  | nil => simp [hitCells]
  | cons k ks ih =>
    obtain ⟨hk, hks⟩ := List.nodup_cons.mp hks
    have hrest : (∃ j ∈ ks, Screen.cell (hitCell k s).fb j = true) ↔ ∃ j ∈ ks, Screen.cell s.fb j = true := by
      refine exists_congr fun j => and_congr_right fun hj => ?_
      rw [hitCell_cell, if_neg (ne_of_mem_of_not_mem hj hk)]
    rw [hitCells_cons, ih hks, hitCell_vf]
    simp only [hrest, List.exists_mem_cons_iff]
    by_cases hc : Screen.cell s.fb k = true <;> simp [hc]

/-! ## The cells a sprite covers -/

/-- The cells on which the set bits of an `n`-row sprite fall, row by row, left to right. -/
def spriteCells (x y : Reg) (n : Nat) (s : State) : List Nat :=
  ((List.range n ×ˢ List.range 8).filter (pixelLands x y s)).map (pixelCell x y s)

theorem spriteCells_congr {x y : Reg} {n : Nat} {s t : State} (hx : readV t x = readV s x)
    (hy : readV t y = readV s y) (hm : t.mem = s.mem) (hi : t.i = s.i) :
    spriteCells x y n t = spriteCells x y n s := by
  rw [spriteCells, pixelLands_congr hx hy hm hi, pixelCell_congr hx hy, spriteCells]

/-- Two bits of a sprite fall on different cells: the screen does not wrap. -/
theorem spriteCells_nodup (x y : Reg) (n : Nat) (s : State) : (spriteCells x y n s).Nodup := by
  refine List.Nodup.map_on (fun p hp q hq h => ?_) ((List.nodup_range.product List.nodup_range).filter _)
  obtain ⟨-, hpx, -⟩ := (pixelLands_iff x y s p).mp (List.mem_filter.mp hp).2
  obtain ⟨-, hqx, -⟩ := (pixelLands_iff x y s q).mp (List.mem_filter.mp hq).2
  obtain ⟨hcol, hrow⟩ := cellIndex_inj hpx hqx h
  exact Prod.ext (Nat.add_left_cancel hrow) (Nat.add_left_cancel hcol)

theorem mem_spriteCells_iff (x y : Reg) (n : Nat) (s : State) (k : Nat) :
    k ∈ spriteCells x y n s ↔
      ∃ r c, r < n ∧ c < 8 ∧ pixelLands x y s (r, c) = true ∧ pixelCell x y s (r, c) = k := by
  simp [spriteCells, and_assoc]

theorem lt_of_mem_spriteCells {x y : Reg} {n : Nat} {s : State} {k : Nat} (h : k ∈ spriteCells x y n s) :
    k < Config.fbCells := by
  obtain ⟨r, c, -, -, hl, rfl⟩ := (mem_spriteCells_iff ..).mp h
  obtain ⟨-, hx, hy⟩ := (pixelLands_iff ..).mp hl
  exact cellIndex_lt hx hy

/-- On the screen, the covered cells are those `spriteCovers` names: row `cy - V[Y]`, column `cx - V[X]`. -/
theorem cellIndex_mem_spriteCells_iff {x y : Reg} {n : Nat} {s : State} {cx cy : Nat} (hx : cx < 64) (hy : cy < 32) :
    cellIndex cx cy ∈ spriteCells x y n s ↔ spriteCovers s x y n cx cy = true := by
  simp only [mem_spriteCells_iff, pixelLands_iff, spriteCovers, Bool.and_eq_true, decide_eq_true_iff]
  constructor
  · rintro ⟨r, c, hr, hc, ⟨hbit, hw, hh⟩, hcell⟩
    obtain ⟨rfl, rfl⟩ := cellIndex_inj hw hx hcell
    rw [Nat.add_sub_cancel_left, Nat.add_sub_cancel_left]
    exact ⟨by omega, hbit⟩
  · rintro ⟨⟨hx1, hx2, hy1, hy2⟩, hbit⟩
    have hcol := Nat.add_sub_cancel' hx1
    have hrow := Nat.add_sub_cancel' hy1
    refine ⟨cy - (readV s y).toNat, cx - (readV s x).toNat, by omega, by omega, ⟨hbit, ?_, ?_⟩, ?_⟩
    · rwa [hcol]
    · rwa [hrow]
    · rw [pixelCell, hcol, hrow]

/-! ## DRW hits the covered cells -/

/-- Turns of the source's loop hit the cells of the bits that land: no hit moves the sprite, since its coordinates are
not in VF. -/
theorem foldl_sourcePixel {x y : Reg} (hx : x ≠ vf) (hy : y ≠ vf) (turns : List (Nat × Nat)) (s : State) :
    turns.foldl (sourcePixel x y) s = hitCells ((turns.filter (pixelLands x y s)).map (pixelCell x y s)) s := by
  induction turns generalizing s with
  | nil => rfl
  | cons rc turns ih =>
    rw [List.foldl_cons, sourcePixel_eq]
    by_cases hl : pixelLands x y s rc = true
    · have hlands : pixelLands x y (hitCell (pixelCell x y s rc) s) = pixelLands x y s :=
        pixelLands_congr (readV_hitCell_other _ s hx) (readV_hitCell_other _ s hy) (hitCell_mem ..) (hitCell_i ..)
      have hcell : pixelCell x y (hitCell (pixelCell x y s rc) s) = pixelCell x y s :=
        pixelCell_congr (readV_hitCell_other _ s hx) (readV_hitCell_other _ s hy)
      rw [if_pos hl, ih, hlands, hcell, List.filter_cons_of_pos hl]
      rfl
    · rw [if_neg hl, ih, List.filter_cons_of_neg hl]

/-- The closed form: VF cleared, then every covered cell hit once. -/
theorem exec_drw_eq_hitCells {x y n : Fin 16} {s : State} (hx : x ≠ vf) (hy : y ≠ vf)
    (h : s.i.toNat + n.val ≤ 4096) :
    exec (.drw x y n) s = .next (hitCells (spriteCells x y n.val s) (writeV s vf 0)) := by
  have hcells : spriteCells x y n.val (writeV s vf 0) = spriteCells x y n.val s :=
    spriteCells_congr (readV_writeV_other s 0 hx) (readV_writeV_other s 0 hy) rfl rfl
  rw [exec_drw_inside (.inl h), ← hcells]
  exact congrArg Host.Outcome.next (foldl_sourcePixel hx hy _ _)

theorem cell_hitCells_clearVf {ks : List Nat} (hks : ks.Nodup) (s : State) (k : Nat) :
    Screen.cell (hitCells ks (writeV s vf 0)).fb k = (Screen.cell s.fb k != decide (k ∈ ks)) :=
  cell_hitCells hks _ k

theorem readV_vf_hitCells_clearVf {ks : List Nat} (hks : ks.Nodup) (s : State) :
    readV (hitCells ks (writeV s vf 0)) vf = if ∃ k ∈ ks, Screen.cell s.fb k = true then 1 else 0 := by
  rw [readV_vf_hitCells hks, readV_writeV_same, writeV_fb]

/-- Every index below 2048 is a cell of the screen. -/
theorem exists_cellIndex {k : Nat} (h : k < Config.fbCells) : ∃ cx cy, cx < 64 ∧ cy < 32 ∧ cellIndex cx cy = k := by
  simp only [Config.fbCells, Config.fbWidth, Config.fbHeight] at h
  refine ⟨k % 64, k / 64, Nat.mod_lt _ (by decide), by omega, ?_⟩
  simp only [cellIndex, Config.fbWidth]
  omega

/-- A covered cell is a cell of the screen that `spriteCovers` names. -/
theorem exists_mem_spriteCells_iff {x y : Reg} {n : Nat} {s : State} {P : Nat → Prop} :
    (∃ k ∈ spriteCells x y n s, P k) ↔
      ∃ cx cy, cx < 64 ∧ cy < 32 ∧ P (cellIndex cx cy) ∧ spriteCovers s x y n cx cy = true := by
  constructor
  · rintro ⟨k, hk, hP⟩
    obtain ⟨cx, cy, hx, hy, rfl⟩ := exists_cellIndex (lt_of_mem_spriteCells hk)
    exact ⟨cx, cy, hx, hy, hP, (cellIndex_mem_spriteCells_iff hx hy).mp hk⟩
  · rintro ⟨cx, cy, hx, hy, hP, hc⟩
    exact ⟨_, (cellIndex_mem_spriteCells_iff hx hy).mpr hc, hP⟩

/-- Settles O33: DRW hits the covered cells once each, so each is flipped, and VF is 1 exactly if one was on. -/
theorem drwTogglesExactlyTheCoveredCells : Obligations.DrwTogglesExactlyTheCoveredCells := by
  intro x y n s hx hy hin
  have hnodup := spriteCells_nodup x y n.val s
  refine ⟨_, exec_drw_eq_hitCells hx hy hin, fun cx cy hcx hcy => ?cell, fun hon => ?collision, fun hoff => ?free,
    fun k hk => ?beyond, ?frame⟩
  case cell =>
    simp only [cell_hitCells_clearVf hnodup, cellIndex_mem_spriteCells_iff hcx hcy, Bool.decide_eq_true]
  case collision => rw [readV_vf_hitCells_clearVf hnodup, if_pos (exists_mem_spriteCells_iff.mpr hon)]
  case free =>
    rw [readV_vf_hitCells_clearVf hnodup, if_neg]
    rw [exists_mem_spriteCells_iff]
    rintro ⟨cx, cy, hcx, hcy, hcell, hcov⟩
    exact Bool.noConfusion ((hoff cx cy hcx hcy hcell).symm.trans hcov)
  case beyond =>
    have hout : k ∉ spriteCells x y n.val s := fun h => Nat.not_lt.mpr hk (lt_of_mem_spriteCells h)
    rw [cell_hitCells_clearVf hnodup, decide_eq_false hout, Bool.bne_false]
  case frame =>
    exact ((writeV_frame s vf 0).mono (by simp) (by simp)).trans (hitCells_frame ..)

/-- A draw moves nothing the sprite's place depends on. -/
theorem spriteCells_drw {x y : Reg} {n : Nat} {s : State} (hx : x ≠ vf) (hy : y ≠ vf) (ks : List Nat) :
    spriteCells x y n (hitCells ks (writeV s vf 0)) = spriteCells x y n s := by
  have hframe := hitCells_frame ks (writeV s vf 0)
  refine spriteCells_congr ?_ ?_ (hitCells_mem ..) (hframe.2 .i (by simp))
  · rw [hframe.1 x (by simpa using hx), readV_writeV_other s 0 hx]
  · rw [hframe.1 y (by simpa using hy), readV_writeV_other s 0 hy]

/-- Settles O35: the second draw hits the cells of the first, which flips them back, and finds on what was off. -/
theorem drawingTwiceRestoresTheScreen : Obligations.DrawingTwiceRestoresTheScreen := by
  intro x y n s t u hx hy hin ht hu
  rw [exec_drw_eq_hitCells hx hy hin] at ht
  cases ht
  have hi : (hitCells (spriteCells x y n.val s) (writeV s vf 0)).i = s.i := (hitCells_frame ..).2 .i (by simp)
  rw [exec_drw_eq_hitCells hx hy (by rwa [hi]), spriteCells_drw hx hy] at hu
  cases hu
  have hnodup := spriteCells_nodup x y n.val s
  simp only [cell_hitCells_clearVf hnodup, readV_vf_hitCells_clearVf hnodup]
  refine ⟨fun k => by simp, fun ⟨cx, cy, hcx, hcy, hcov⟩ hoff => ?_⟩
  have hfree : ∀ k ∈ spriteCells x y n.val s, Screen.cell s.fb k = false := by
    intro k hk
    obtain ⟨cx, cy, hcx, hcy, rfl⟩ := exists_cellIndex (lt_of_mem_spriteCells hk)
    exact hoff cx cy hcx hcy ((cellIndex_mem_spriteCells_iff hcx hcy).mp hk)
  have hmem := (cellIndex_mem_spriteCells_iff (n := n.val) hcx hcy).mpr hcov
  refine ⟨if_neg ?_, if_pos ⟨_, hmem, ?_⟩⟩
  · rintro ⟨k, hk, hon⟩
    exact Bool.noConfusion ((hfree k hk).symm.trans hon)
  · simp [hfree _ hmem, hmem]

end Sys2Proof.Machine
end

section
/-! The statements on the host's operations: `set_key` (R142), `load_program` (R151, R152), `reset` (R150, R23),
and what acts while halted (R134). -/

namespace Sys2Proof.Machine

/-! ## set_key -/

theorem setKey_of_halted {s : State} (h : s.halt = true) (index : Fin 16) (pressed : Bool) :
    setKey index pressed s = s := if_pos h

theorem setKey_of_safe {s : State} (h : Safe s) (index : Fin 16) (pressed : Bool) :
    setKey index pressed s = { s with key := s.key.set index pressed } :=
  if_neg (Bool.eq_false_iff.mp h)

/-- A new keypad state leaves every other part as it was. -/
theorem frame_update_key (s : State) (key : Vector Bool 16) : Frame [] [.key] s { s with key := key } :=
  ⟨fun _ _ => rfl, fun p hp => by cases p <;> simp_all [Part.same, latchOf]⟩

/-- Settles O37. -/
theorem setKeyWritesOneKey : Obligations.SetKeyWritesOneKey := by
  refine fun index pressed s hs =>
    ⟨_, congrArg Host.Outcome.next (setKey_of_safe hs index pressed), fun k => ?_, frame_update_key ..⟩
  simp only [Fin.getElem_fin, Vector.getElem_set, Fin.val_inj, eq_comm (a := k)]

/-! ## load_program -/

theorem loadProgram_of_halted {s : State} (h : s.halt = true) (bytes : List Byte) : loadProgram bytes s = s := if_pos h

theorem loadProgram_of_fits {bytes : List Byte} {s : State} (hs : Safe s) (hl : 0x200 + bytes.length ≤ 4096) :
    loadProgram bytes s = { s with mem := Memory.writeBytes s.mem 0x200 bytes } := by
  rcases loadProgram_cases bytes s with ⟨hh, -⟩ | ⟨-, h, -⟩ | ⟨-, -, e⟩
  · simp [Safe, hh] at hs
  · omega
  · exact e

theorem loadProgram_of_too_large {bytes : List Byte} {s : State} (hs : Safe s) (hl : 4096 < 0x200 + bytes.length) :
    loadProgram bytes s = raiseFatal ⟨.romTooLarge, 0⟩ s := by
  rcases loadProgram_cases bytes s with ⟨hh, -⟩ | ⟨-, -, e⟩ | ⟨-, h, -⟩
  · simp [Safe, hh] at hs
  · exact e
  · omega

theorem frame_update_mem (s : State) (mem : Memory) : Frame [] [.mem] s { s with mem := mem } :=
  ⟨fun _ _ => rfl, fun p hp => by cases p <;> simp_all [Part.same, latchOf]⟩

theorem loadProgram_frame {bytes : List Byte} {s : State} (hs : Safe s) (hl : 0x200 + bytes.length ≤ 4096) :
    Frame [] [.mem] s (loadProgram bytes s) :=
  loadProgram_of_fits hs hl ▸ frame_update_mem ..

/-- A loaded byte, wherever the buffer holds one. -/
theorem loadProgram_read_loaded {bytes : List Byte} {s : State} (hs : Safe s) (hl : 0x200 + bytes.length ≤ 4096)
    {k : Nat} {b : Byte} (h : bytes[k]? = some b) : Memory.read (loadProgram bytes s).mem (0x200 + k) = b := by
  rw [loadProgram_read bytes s hs hl, if_pos (by omega), Nat.add_sub_cancel_left, h, Option.getD_some]

theorem loadProgram_read_outside {bytes : List Byte} {s : State} (hs : Safe s) (hl : 0x200 + bytes.length ≤ 4096)
    {a : Nat} (h : a < 0x200 ∨ 0x200 + bytes.length ≤ a) :
    Memory.read (loadProgram bytes s).mem a = Memory.read s.mem a := by
  rw [loadProgram_read bytes s hs hl]
  split
  · rw [List.getElem?_eq_none (by omega), Option.getD_none]
  · rfl

/-- Settles O39. -/
theorem loadProgramCopiesTheBytes : Obligations.LoadProgramCopiesTheBytes :=
  fun _ _ hs hl => ⟨_, rfl, fun _ hk => loadProgram_read_loaded hs hl (List.getElem?_eq_getElem hk),
    fun _ => loadProgram_read_outside hs hl, loadProgram_frame hs hl⟩

/-- Settles O43: the loaded state can be stepped like any other, and the word at its PC is the two loaded bytes. -/
theorem loadIsSeenByTheNextFetch : Obligations.LoadIsSeenByTheNextFetch := by
  intro bytes k hi lo s t hs hl hpc hhi hlo ht
  cases ht
  have hread := loadProgram_read_loaded hs hl hhi
  have hread' := loadProgram_read_loaded hs hl hlo
  have hk : k + 1 < bytes.length := (List.getElem?_eq_some_iff.mp hlo).1
  have hload := loadProgram_of_fits hs hl
  have htpc : (loadProgram bytes s).pc = s.pc := by rw [hload]
  have hsafe : Safe (loadProgram bytes s) := by rw [hload]; exact hs
  have hin : (loadProgram bytes s).pc.toNat ≤ 0xFFE := by rw [htpc]; omega
  have hword : wordAtPc (loadProgram bytes s) = joinBytes hi lo := by
    rw [wordAtPc, htpc, hpc, hread, Nat.add_assoc, hread']
  have hadvance : advancePc (loadProgram bytes s) = { loadProgram bytes s with pc := s.pc + 2 } := by
    rw [advancePc, htpc]
  rw [← hword, ← hadvance]
  exact ⟨fun i => step_of_decodeWord hsafe hin, fun e => step_of_decodeWord_error hsafe hin⟩

/-! ## While halted -/

/-- While halted every operation but reset is the identity (R134). -/
theorem perform_of_halted {s : State} (h : s.halt = true) {op : Operation} (hop : op ≠ .reset) :
    perform op s = .next s := by
  cases op with
  | reset => exact absurd rfl hop
  | loadProgram bytes => exact congrArg Host.Outcome.next (loadProgram_of_halted h bytes)
  | tick => exact step_of_halted h
  | timerTick => exact congrArg Host.Outcome.next (timerTick_of_halted h)
  | setKey index pressed => exact congrArg Host.Outcome.next (setKey_of_halted h index pressed)
  | display | sound => rfl

/-- Settles O41. -/
theorem onlyResetActsWhileHalted : Obligations.OnlyResetActsWhileHalted :=
  fun _ s h => ⟨perform_of_halted h, reset s, rfl, rfl⟩

/-- Settles O40: the refusal is the fatal entry alone, and halts; 3584 bytes end at the last address. -/
theorem loadProgramRefusesWhatDoesNotFit : Obligations.LoadProgramRefusesWhatDoesNotFit := by
  refine fun bytes s hs => ⟨fun hl => ?_, fun hlen => ?_⟩
  · exact ⟨_, congrArg Host.Outcome.next (loadProgram_of_too_large hs hl), raiseFatal_halt .., raiseFatal_haltCause ..,
      raiseFatal_frame .., fun op hop => perform_of_halted (raiseFatal_halt ..) hop⟩
  · have hl : 0x200 + bytes.length ≤ 4096 := by omega
    refine ⟨_, rfl, ?_, fun k hk => loadProgram_read_loaded hs hl (List.getElem?_eq_getElem hk)⟩
    rw [loadProgram_of_fits hs hl]
    exact hs

/-! ## reset -/

/-- Beyond the font memory is zero after reset. -/
theorem unlisted_beyond_font {a : Nat} (h : 80 ≤ a) : unlisted a = 0 := List.getD_eq_default font 0 h

theorem readV_reset (s : State) (k : Reg) : readV (reset s) k = 0 := Vector.getElem_replicate k.isLt

/-- Settles O42. -/
theorem resetLeavesTheListedValues : Obligations.ResetLeavesTheListedValues :=
  fun s => ⟨reset s, rfl, readV_reset s, rfl, rfl, rfl, fun k => Vector.getElem_replicate k.isLt, rfl,
    fun _ => unlisted_beyond_font, fun _ => rfl, fun k => Vector.getElem_replicate k.isLt, rfl, rfl, rfl⟩

end Sys2Proof.Machine
end

section
/-! What an instruction can change: which parts of the state each instruction writes, proved once for all of them, and
the statements about named writers (spec/10_state.md, 20_memory.md section 3, 45_random.md). -/

namespace Sys2Proof.Machine

/-- The parts of the state other than registers that an instruction may write. -/
def writtenParts : Instr → List Part
  | .cls => [.fb]
  | .ret => [.pc, .sp, .latch]
  | .jp _ | .seImm _ _ | .sneImm _ _ | .seReg _ _ | .sneReg _ _ => [.pc]
  | .call _ => [.pc, .sp, .stack, .latch]
  | .ldI _ => [.i]
  | .rnd _ _ => [.draws]
  | .drw _ _ _ => [.fb, .latch]
  | .nop | .ldImm _ _ | .addImm _ _ | .ldReg _ _ | .orReg _ _ | .andReg _ _ | .xorReg _ _ | .addReg _ _ | .sub _ _
  | .shr _ _ | .subn _ _ | .shl _ _ => []

/-- Everything RET can answer. -/
theorem exec_ret_cases {s t : State} (h : exec .ret s = .next t) :
    (s.sp.val = 0 ∧ t = raiseFatal ⟨.stackUnderflow, 0⟩ s) ∨
    ∃ (n : Nat) (hn : n < 16), s.sp.val = n + 1 ∧ t = { s with sp := ⟨n, by omega⟩, pc := s.stack[n] } := by
  cases h
  exact ret_cases s

/-- Everything CALL can answer. -/
theorem exec_call_cases {nnn : Addr} {s t : State} (h : exec (.call nnn) s = .next t) :
    (s.sp.val = 16 ∧ t = raiseFatal ⟨.stackOverflow, 16⟩ s) ∨
    ∃ hroom : s.sp.val < 16, t =
      { s with stack := s.stack.set s.sp.val s.pc hroom, sp := ⟨s.sp.val + 1, by omega⟩, pc := zextAddr nnn } := by
  cases h
  exact call_cases (zextAddr nnn) s

theorem writeFlag_writeV_frame (s : State) (x : Reg) (r : Byte) (c : Bool) :
    Frame [x, vf] [] s (writeFlag (writeV s x r) c) :=
  ((writeV_frame s x r).mono (by simp) (by simp)).trans ((writeFlag_frame _ c).mono (by simp) (by simp))

theorem takeDraw_writeV_frame (s : State) (x : Reg) (r : Byte) : Frame [x] [.draws] s (writeV (takeDraw s) x r) :=
  ((takeDraw_frame s).mono (by simp) (by simp)).trans ((writeV_frame _ x r).mono (by simp) (by simp))

/-- The frame of every instruction. -/
theorem exec_frame {i : Instr} {s t : State} (h : exec i s = .next t) :
    Frame (writtenRegs i) (writtenParts i) s t := by
  cases i with
  | nop => cases h; exact frame_refl ..
  | cls => cases h; exact clearScreen_frame s
  | ret =>
    rcases exec_ret_cases h with ⟨-, rfl⟩ | ⟨n, hn, -, rfl⟩
    · exact (raiseFatal_frame ..).mono (by simp) (by simp [writtenParts])
    · exact (frame_update_pc_sp ..).mono (by simp) (by simp [writtenParts])
  | jp => cases h; exact jumpTo_frame ..
  | call =>
    rcases exec_call_cases h with ⟨-, rfl⟩ | ⟨hroom, rfl⟩
    · exact (raiseFatal_frame ..).mono (by simp) (by simp [writtenParts])
    · exact (frame_update_flow ..).mono (by simp) (by simp [writtenParts])
  | seImm | sneImm | seReg | sneReg => cases h; exact skipIf_frame ..
  | ldImm | addImm | ldReg | orReg | andReg | xorReg => cases h; exact writeV_frame ..
  | addReg => cases h; exact writeFlag_writeV_frame ..
  | sub | shr | subn | shl => cases h; exact writeV_writeFlag_frame ..
  | ldI => cases h; exact setI_frame ..
  | rnd => cases h; exact takeDraw_writeV_frame ..
  | drw => cases h; exact drw_frame ..

/-! ## The writers of each part -/

theorem fb_written_iff (i : Instr) : .fb ∈ writtenParts i ↔ i = .cls ∨ ∃ x y n, i = .drw x y n := by
  cases i <;> simp [writtenParts]

theorem i_written_iff (i : Instr) : .i ∈ writtenParts i ↔ ∃ nnn, i = .ldI nnn := by
  cases i <;> simp [writtenParts]

theorem stack_written_iff (i : Instr) : .stack ∈ writtenParts i ↔ ∃ nnn, i = .call nnn := by
  cases i <;> simp [writtenParts]

theorem sp_written_iff (i : Instr) : .sp ∈ writtenParts i ↔ (∃ nnn, i = .call nnn) ∨ i = .ret := by
  cases i <;> simp [writtenParts]

theorem draws_written_iff (i : Instr) : .draws ∈ writtenParts i ↔ ∃ x nn, i = .rnd x nn := by
  cases i <;> simp [writtenParts]

theorem pc_written_iff (i : Instr) :
    .pc ∈ writtenParts i ↔
      (∃ nnn, i = .jp nnn) ∨ (∃ nnn, i = .call nnn) ∨ i = .ret ∨ (∃ x nn, i = .seImm x nn) ∨
      (∃ x nn, i = .sneImm x nn) ∨ (∃ x y, i = .seReg x y) ∨ ∃ x y, i = .sneReg x y := by
  cases i <;> simp [writtenParts]

/-- Memory, keypad and timers belong to the host's operations. -/
theorem host_parts_not_written (i : Instr) :
    .mem ∉ writtenParts i ∧ .key ∉ writtenParts i ∧ .dt ∉ writtenParts i ∧ .st ∉ writtenParts i := by
  cases i <;> simp [writtenParts]

/-- Settles O48. -/
theorem instructionsLeaveMemoryKeysAndTimers : Obligations.InstructionsLeaveMemoryKeysAndTimers := by
  intro i s t h
  obtain ⟨hmem, hkey, hdt, hst⟩ := host_parts_not_written i
  obtain ⟨-, hparts⟩ := exec_frame h
  exact ⟨hparts .mem hmem, hparts .key hkey, hparts .dt hdt, hparts .st hst⟩

/-- Settles O49. -/
theorem screenIndexAndStackHaveOnlyTheirWriters : Obligations.ScreenIndexAndStackHaveOnlyTheirWriters := by
  intro i s t h
  obtain ⟨-, hparts⟩ := exec_frame h
  refine ⟨fun hcls hdrw => hparts .fb ?_, fun hldI => hparts .i ?_, fun hcall => hparts .stack ?_,
    fun hcall hret => hparts .sp ?_⟩
  · rw [fb_written_iff]
    exact not_or.mpr ⟨hcls, fun ⟨x, y, n, e⟩ => hdrw x y n e⟩
  · rw [i_written_iff]
    exact not_exists.mpr hldI
  · rw [stack_written_iff]
    exact not_exists.mpr hcall
  · rw [sp_written_iff]
    exact not_or.mpr ⟨not_exists.mpr hcall, hret⟩

/-- Settles O50. -/
theorem registersAndPcHaveOnlyTheirWriters : Obligations.RegistersAndPcHaveOnlyTheirWriters := by
  intro i s t h
  obtain ⟨hregs, hparts⟩ := exec_frame h
  refine ⟨hregs, fun hjp hcall hret hseImm hsneImm hseReg hsneReg => hparts .pc ?_⟩
  rw [pc_written_iff]
  rintro (⟨_, e⟩ | ⟨_, e⟩ | e | ⟨_, _, e⟩ | ⟨_, _, e⟩ | ⟨_, _, e⟩ | ⟨_, _, e⟩)
  · exact hjp _ e
  · exact hcall _ e
  · exact hret e
  · exact hseImm _ _ e
  · exact hsneImm _ _ e
  · exact hseReg _ _ e
  · exact hsneReg _ _ e

/-- Settles O30: RND advances the count, and no other instruction may write it. -/
theorem onlyRndTakesADraw : Obligations.OnlyRndTakesADraw := by
  refine fun i s t h => ⟨fun x nn hi => ?_, fun hne => (exec_frame h).2 .draws ?_⟩
  · subst hi
    cases h
    exact takeDraw_draws s
  · rw [draws_written_iff]
    exact fun ⟨x, nn, e⟩ => hne x nn e

end Sys2Proof.Machine
end

section
/-! When an instruction halts (spec/60_exceptions.md R131), proved once for all of them. -/

namespace Sys2Proof.Machine

/-- The fatal error an instruction raises in a state, if any (R81, R83, R125). -/
def fatalOf (s : State) : Instr → Option Fatal
  | .ret => if s.sp.val = 0 then some ⟨.stackUnderflow, 0⟩ else none
  | .call _ => if s.sp.val = 16 then some ⟨.stackOverflow, 16⟩ else none
  | .drw _ _ n =>
    if n.val ≠ 0 ∧ 4096 < s.i.toNat + n.val then some ⟨.memOob, BitVec.ofNat 16 (max s.i.toNat 4096)⟩ else none
  | _ => none

/-- The latch a fatal error leaves (R132). -/
def Fatal.latch (f : Fatal) : Bool × HaltCause × Word := (true, f.cause, f.info)

/-- The latch after an instruction: written if it raised a fatal error, and else as before. -/
theorem exec_latch {i : Instr} {s t : State} (h : exec i s = .next t) :
    latchOf t = (fatalOf s i).elim (latchOf s) Fatal.latch := by
  have hlatch := (exec_frame h).2 .latch
  cases i with
  | ret =>
    rcases exec_ret_cases h with ⟨hsp, rfl⟩ | ⟨n, hn, hsp, rfl⟩
    · rw [fatalOf, if_pos hsp]; rfl
    · rw [fatalOf, if_neg (by omega)]; rfl
  | call nnn =>
    rcases exec_call_cases h with ⟨hsp, rfl⟩ | ⟨hroom, rfl⟩
    · rw [fatalOf, if_pos hsp]; rfl
    · rw [fatalOf, if_neg (by omega)]; rfl
  | drw x y n =>
    cases h
    rcases drawRows_latch x y n.val 0 (writeFlag s false) with ⟨hin, e⟩ | ⟨hout, hn, e⟩
    · have hno : ¬(n.val ≠ 0 ∧ 4096 < s.i.toNat + n.val) := by
        rw [writeFlag_i] at hin
        omega
      rw [fatalOf, if_neg hno]
      exact e
    · rw [fatalOf, if_pos ⟨hn, hout⟩]
      exact e
  | _ => exact hlatch (by simp [writtenParts])

/-- The closed list of R131 for instructions. -/
theorem fatalOf_isSome_iff (s : State) (i : Instr) :
    (fatalOf s i).isSome = true ↔
      (i = .ret ∧ s.sp.val = 0) ∨ ((∃ nnn, i = .call nnn) ∧ s.sp.val = 16) ∨
      ∃ x y n, i = .drw x y n ∧ n.val ≠ 0 ∧ 4096 < s.i.toNat + n.val := by
  cases i <;> simp [fatalOf]

theorem exec_halt_iff {i : Instr} {s t : State} (hs : Safe s) (h : exec i s = .next t) :
    t.halt = true ↔ (fatalOf s i).isSome = true := by
  have hlatch : t.halt = ((fatalOf s i).elim (latchOf s) Fatal.latch).1 := congrArg Prod.fst (exec_latch h)
  simp only [Safe] at hs
  rw [hlatch]
  cases fatalOf s i <;> simp [latchOf, hs, Fatal.latch]

theorem status_of_fatalOf {i : Instr} {s t : State} {f : Fatal} (h : exec i s = .next t) (hf : fatalOf s i = some f) :
    status t = (true, f.cause.code, f.info) := by
  have hlatch := exec_latch h
  rw [hf] at hlatch
  obtain ⟨hhalt, hcause, hinfo⟩ : t.halt = true ∧ t.haltCause = f.cause ∧ t.haltInfo = f.info := by
    simpa [latchOf, Fatal.latch] using hlatch
  rw [status, hhalt, hcause, hinfo]

/-- Settles O51. -/
theorem instructionsHaltExactlyOnTheListedConditions : Obligations.InstructionsHaltExactlyOnTheListedConditions := by
  refine fun i s t hs h => ⟨(exec_halt_iff hs h).trans (fatalOf_isSome_iff s i), fun hi hsp => ?_,
    fun nnn hi hsp => ?_, fun x y n hi hn hout => ?_⟩
  · exact status_of_fatalOf (f := ⟨.stackUnderflow, 0⟩) h (hi ▸ if_pos hsp)
  · exact status_of_fatalOf (f := ⟨.stackOverflow, 16⟩) h (hi ▸ if_pos hsp)
  · exact status_of_fatalOf (f := ⟨.memOob, _⟩) h (hi ▸ if_pos ⟨hn, hout⟩)

end Sys2Proof.Machine
end

section
/-! What every step and every operation keep: the canonical forms, and the invariants of reachable states
(spec/10_state.md section 8). -/

namespace Sys2Proof.Machine

@[simp] theorem skipIf_mem (c : Bool) (s : State) : (skipIf c s).mem = s.mem := by cases c <;> rfl

@[simp] theorem skipIf_fb (c : Bool) (s : State) : (skipIf c s).fb = s.fb := by cases c <;> rfl

/-- No instruction touches the memory's data at all. -/
theorem exec_mem {i : Instr} {s t : State} (h : exec i s = .next t) : t.mem = s.mem := by
  cases i with
  | ret => rcases exec_ret_cases h with ⟨-, rfl⟩ | ⟨n, hn, -, rfl⟩ <;> rfl
  | call => rcases exec_call_cases h with ⟨-, rfl⟩ | ⟨hroom, rfl⟩ <;> rfl
  | seImm | sneImm | seReg | sneReg => cases h; exact skipIf_mem ..
  | drw => cases h; exact drawRows_mem ..
  | _ => cases h; rfl

/-- Every instruction keeps the framebuffer's canonical form. -/
theorem exec_screen_wf {i : Instr} {s t : State} (hw : Screen.wf s.fb = true) (h : exec i s = .next t) :
    Screen.wf t.fb = true := by
  cases i with
  | cls => cases h; rfl
  | ret => rcases exec_ret_cases h with ⟨-, rfl⟩ | ⟨n, hn, -, rfl⟩ <;> exact hw
  | call => rcases exec_call_cases h with ⟨-, rfl⟩ | ⟨hroom, rfl⟩ <;> exact hw
  | seImm | sneImm | seReg | sneReg => cases h; rwa [skipIf_fb]
  | drw => cases h; exact drawRows_wf _ _ _ _ _ hw
  | _ => cases h; exact hw

/-- A property that a fatal fetch, the fetch's advance of PC and the instruction after it keep, a step keeps. -/
theorem step_induction {P : State → Prop} {s t : State} (h : step s = .next t) (hs : P s)
    (hfault : 0xFFE < s.pc.toNat → P (raiseFatal ⟨.memOob, BitVec.ofNat 16 (max s.pc.toNat 4096)⟩ s))
    (hadvance : s.pc.toNat ≤ 0xFFE → P (advancePc s))
    (hexec : ∀ i, s.pc.toNat ≤ 0xFFE → P (advancePc s) → exec i (advancePc s) = .next t → P t) : P t := by
  rcases step_cases s with ⟨-, e⟩ | ⟨-, hp, e⟩ | ⟨-, hp, ⟨_, -, e⟩ | ⟨i, -, e⟩⟩ <;> rw [e] at h
  · cases h; exact hs
  · cases h; exact hfault hp
  · cases h; exact hadvance hp
  · exact hexec i hp (hadvance hp) h

/-- Memory and framebuffer in canonical form. -/
def Canonical (s : State) : Prop := Memory.wf s.mem = true ∧ Screen.wf s.fb = true

theorem step_canonical {s t : State} (hs : Canonical s) (h : step s = .next t) : Canonical t := by
  refine step_induction h hs (fun _ => hs) (fun _ => hs) fun i _ hu he => ⟨?_, exec_screen_wf hu.2 he⟩
  rw [exec_mem he]
  exact hu.1

theorem loadProgram_fb (bytes : List Byte) (s : State) : (loadProgram bytes s).fb = s.fb := by
  rcases loadProgram_cases bytes s with ⟨-, e⟩ | ⟨-, -, e⟩ | ⟨-, -, e⟩ <;> rw [e]; rfl

theorem loadProgram_canonical {s : State} (hs : Canonical s) (bytes : List Byte) :
    Canonical (loadProgram bytes s) :=
  ⟨wf_loadProgram bytes s hs.1, loadProgram_fb bytes s ▸ hs.2⟩

theorem timerTick_canonical {s : State} (hs : Canonical s) : Canonical (timerTick s) := by
  unfold timerTick
  split <;> exact hs

theorem setKey_canonical {s : State} (hs : Canonical s) (index : Fin 16) (pressed : Bool) :
    Canonical (setKey index pressed s) := by
  unfold setKey
  split <;> exact hs

/-- Settles O53, operation by operation. -/
theorem operationsKeepTheCanonicalForms : Obligations.OperationsKeepTheCanonicalForms := by
  intro op s t hmem hfb h
  have hs : Canonical s := ⟨hmem, hfb⟩
  cases op with
  | reset => cases h; exact ⟨rfl, rfl⟩
  | loadProgram bytes => cases h; exact loadProgram_canonical hs bytes
  | tick => exact step_canonical hs h
  | timerTick => cases h; exact timerTick_canonical hs
  | setKey index pressed => cases h; exact setKey_canonical hs index pressed
  | display | sound => cases h; exact hs

/-! ## The invariants, instruction by instruction -/

theorem zextAddr_le (nnn : Addr) : (zextAddr nnn).toNat ≤ 0x0FFF := by
  rw [zextAddr_toNat]
  exact Nat.le_of_lt_succ nnn.isLt

theorem exec_index_le {i : Instr} {s t : State} (hi : s.i.toNat ≤ 0x0FFF) (h : exec i s = .next t) :
    t.i.toNat ≤ 0x0FFF := by
  by_cases hw : .i ∈ writtenParts i
  · obtain ⟨nnn, rfl⟩ := (i_written_iff i).mp hw
    cases h
    exact zextAddr_le nnn
  · rwa [show t.i = s.i from (exec_frame h).2 .i hw]

/-- CALL, the stack's only writer, pushes PC as the fetch left it, at most 0x1000. -/
theorem exec_stack_le {i : Instr} {s t : State} (hp : s.pc.toNat ≤ 0x1000)
    (hk : ∀ k : Fin 16, (s.stack[k]).toNat ≤ 0x1000) (h : exec i s = .next t) (k : Fin 16) :
    (t.stack[k]).toNat ≤ 0x1000 := by
  by_cases hw : .stack ∈ writtenParts i
  · obtain ⟨nnn, rfl⟩ := (stack_written_iff i).mp hw
    rcases exec_call_cases h with ⟨-, rfl⟩ | ⟨hroom, rfl⟩
    · exact hk k
    · simp only [Fin.getElem_fin, Vector.getElem_set]
      split
      · exact hp
      · exact hk k
  · rw [show t.stack = s.stack from (exec_frame h).2 .stack hw]
    exact hk k

theorem skipIf_pc_le {c : Bool} {s : State} (hp : s.pc.toNat ≤ 0x1000) : (skipIf c s).pc.toNat ≤ 0x1002 := by
  rw [skipIf_pc_toNat]
  split <;> omega

/-- PC ends at a 12-bit target, a return address, or at most one word past where the fetch left it. -/
theorem exec_pc_le {i : Instr} {s t : State} (hp : s.pc.toNat ≤ 0x1000)
    (hk : ∀ k : Fin 16, (s.stack[k]).toNat ≤ 0x1000) (h : exec i s = .next t) : t.pc.toNat ≤ 0x1002 := by
  have hsame := (exec_frame h).2 .pc
  cases i with
  | jp nnn => cases h; exact (zextAddr_le nnn).trans (by decide)
  | call nnn =>
    rcases exec_call_cases h with ⟨-, rfl⟩ | ⟨hroom, rfl⟩
    · exact hp.trans (by decide)
    · exact (zextAddr_le nnn).trans (by decide)
  | ret =>
    rcases exec_ret_cases h with ⟨-, rfl⟩ | ⟨n, hn, -, rfl⟩
    · exact hp.trans (by decide)
    · exact (hk ⟨n, hn⟩).trans (by decide)
  | seImm | sneImm | seReg | sneReg => cases h; exact skipIf_pc_le hp
  | _ =>
    rw [show t.pc = s.pc from hsame (by simp [writtenParts])]
    exact hp.trans (by decide)

/-- Everything `fatalOf` can name. -/
theorem fatalOf_cases {s : State} {i : Instr} {f : Fatal} (h : fatalOf s i = some f) :
    f = ⟨.stackUnderflow, 0⟩ ∨ f = ⟨.stackOverflow, 16⟩ ∨ f = ⟨.memOob, BitVec.ofNat 16 (max s.i.toNat 4096)⟩ := by
  unfold fatalOf at h
  split at h
  case h_4 => cases h
  all_goals
    obtain ⟨-, rfl⟩ := Option.ite_some_none_eq_some.mp h
    simp

theorem exec_latch_same_or_cause {i : Instr} {s t : State} (h : exec i s = .next t) :
    latchOf t = latchOf s ∨ (t.halt = true ∧ t.haltCause ≠ .noCause) := by
  have hlatch := exec_latch h
  cases hf : fatalOf s i with
  | none => exact .inl (by rw [hlatch, hf]; rfl)
  | some f =>
    obtain ⟨hhalt, hcause, -⟩ : t.halt = true ∧ t.haltCause = f.cause ∧ t.haltInfo = f.info := by
      simpa [hf, latchOf, Fatal.latch] using hlatch
    refine .inr ⟨hhalt, ?_⟩
    rw [hcause]
    rcases fatalOf_cases hf with rfl | rfl | rfl <;> simp

/-- Every instruction keeps the invariants where a fetch can have left PC. -/
theorem exec_keeps_inv {i : Instr} {s t : State} (hinv : Inv s) (hp : s.pc.toNat ≤ 0x1000)
    (h : exec i s = .next t) : Inv t := by
  obtain ⟨-, -, hdt, hst⟩ := host_parts_not_written i
  obtain ⟨-, hparts⟩ := exec_frame h
  exact hinv.carry (exec_index_le hinv.index h) (exec_pc_le hp hinv.stack h) (exec_stack_le hp hinv.stack h)
    (hparts .dt hdt) (hparts .st hst) (exec_mem h) (exec_latch_same_or_cause h) (exec_screen_wf hinv.screen h)

/-! ## The invariants, operation by operation -/

theorem raiseFatal_keeps_inv {f : Fatal} {s : State} (hinv : Inv s) (hf : f.cause ≠ .noCause) :
    Inv (raiseFatal f s) :=
  hinv.carry hinv.index hinv.pc hinv.stack rfl rfl rfl (.inr ⟨rfl, hf⟩) hinv.screen

theorem advancePc_pc_le {s : State} (hp : s.pc.toNat ≤ 0xFFE) : (advancePc s).pc.toNat ≤ 0x1000 := by
  rw [advancePc_pc_toNat]
  omega

theorem advancePc_keeps_inv {s : State} (hinv : Inv s) (hp : s.pc.toNat ≤ 0xFFE) : Inv (advancePc s) :=
  hinv.carry hinv.index ((advancePc_pc_le hp).trans (by decide)) hinv.stack rfl rfl rfl (.inl rfl) hinv.screen

/-- Settles O45: a fetch succeeds up to 0xFFE only, so the instruction runs with PC at most 0x1000. -/
theorem stepKeepsTheInvariants : Obligations.StepKeepsTheInvariants :=
  fun _ _ hinv h => step_induction h hinv (fun _ => raiseFatal_keeps_inv hinv (by simp)) (advancePc_keeps_inv hinv)
    fun _ hp hu => exec_keeps_inv hu (advancePc_pc_le hp)

theorem reset_inv (s : State) : Inv (reset s) where
  index := by simp [reset, State.reset]
  pc := by simp [reset, State.reset]
  stack k := by simp [reset, State.reset]
  timers := ⟨rfl, rfl⟩
  lowMemory _ _ := rfl
  latch _ := ⟨rfl, rfl⟩
  cause h := by cases h
  memory := rfl
  screen := rfl

/-- Settles O44. -/
theorem resetSatisfiesTheInvariants : Obligations.ResetSatisfiesTheInvariants := reset_inv State.reset

/-- A loaded program stands from 0x200 up, so low memory is untouched. -/
theorem loadProgram_keeps_inv {s : State} (hinv : Inv s) (bytes : List Byte) : Inv (loadProgram bytes s) := by
  rcases loadProgram_cases bytes s with ⟨-, e⟩ | ⟨-, -, e⟩ | ⟨hs, hl, e⟩
  · rwa [e]
  · rw [e]
    exact raiseFatal_keeps_inv hinv (by simp)
  · have hlow : ∀ a, a < 0x200 → Memory.read (loadProgram bytes s).mem a = unlisted a := fun a ha =>
      (loadProgram_read_outside hs hl (.inl ha)).trans (hinv.lowMemory a ha)
    have hmem := wf_loadProgram bytes s hinv.memory
    rw [e] at hlow hmem ⊢
    exact { hinv with lowMemory := hlow, memory := hmem }

/-- Timers at zero stay there. -/
theorem timerTick_keeps_inv {s : State} (hinv : Inv s) : Inv (timerTick s) := by
  unfold timerTick
  split
  · exact hinv
  · obtain ⟨hdt, hst⟩ := hinv.timers
    exact { hinv with timers := by rw [hdt, hst]; exact ⟨rfl, rfl⟩ }

theorem setKey_keeps_inv {s : State} (hinv : Inv s) (index : Fin 16) (pressed : Bool) :
    Inv (setKey index pressed s) := by
  unfold setKey
  split
  · exact hinv
  · exact { hinv with }

/-- Settles O54, operation by operation. -/
theorem operationsKeepTheInvariants : Obligations.OperationsKeepTheInvariants := by
  intro op s t hinv h
  cases op with
  | reset => cases h; exact reset_inv s
  | loadProgram bytes => cases h; exact loadProgram_keeps_inv hinv bytes
  | tick => exact stepKeepsTheInvariants s t hinv h
  | timerTick => cases h; exact timerTick_keeps_inv hinv
  | setKey index pressed => cases h; exact setKey_keeps_inv hinv index pressed
  | display | sound => cases h; exact hinv

/-- Settles O46, by induction over the operations performed since reset. -/
theorem reachableStatesSatisfyTheInvariants : Obligations.ReachableStatesSatisfyTheInvariants := by
  intro s h
  induction h with
  | reset => exact resetSatisfiesTheInvariants
  | perform op _ hperform ih => exact operationsKeepTheInvariants op _ _ ih hperform

/-! ## The fatal errors of a step -/

/-- A fetch from 0xFFF or 0x1000 names 0x1000, one from beyond names PC itself. -/
theorem firstOutside_cases {pc : Word} (h : 0xFFE < pc.toNat) :
    BitVec.ofNat 16 (max pc.toNat 4096) = 0x1000 ∨
      (0x1000 < pc.toNat ∧ BitVec.ofNat 16 (max pc.toNat 4096) = pc) := by
  rw [firstOutside_eq h]
  rcases Nat.lt_or_ge 0x1000 pc.toNat with hbig | hsmall
  · exact .inr ⟨hbig, if_neg (by omega)⟩
  · refine .inl ?_
    split
    · rfl
    · exact BitVec.eq_of_toNat_eq (show pc.toNat = 0x1000 by omega)

/-- Settles O47: a step halts by its fetch, which leaves PC, or by its instruction, whose I the invariants bound. -/
theorem fatalErrorsFromInvariantStates : Obligations.FatalErrorsFromInvariantStates := by
  intro s t hinv hs h ht
  rcases step_cases s with ⟨hh, -⟩ | ⟨-, hp, e⟩ | ⟨-, hp, ⟨_, -, e⟩ | ⟨i, -, e⟩⟩
  · simp [Safe, hh] at hs
  · rw [e] at h
    cases h
    rcases firstOutside_cases hp with hinfo | ⟨hbig, hinfo⟩ <;> rw [hinfo]
    · exact .inr (.inr (.inl rfl))
    · exact .inr (.inr (.inr ⟨hbig, rfl, rfl⟩))
  · rw [e] at h
    cases h
    exact Bool.noConfusion (hs.symm.trans ht)
  · rw [e] at h
    obtain ⟨f, hf⟩ := Option.isSome_iff_exists.mp ((exec_halt_iff (s := advancePc s) hs h).mp ht)
    rw [status_of_fatalOf h hf]
    have hmax : max (advancePc s).i.toNat 4096 = 4096 := max_eq_right (hinv.index.trans (by decide))
    rcases fatalOf_cases hf with rfl | rfl | rfl
    · exact .inl rfl
    · exact .inr (.inl rfl)
    · rw [hmax]
      exact .inr (.inr (.inl rfl))

end Sys2Proof.Machine
end

section
/-! The statement of spec/70_reset_and_hazards.md section 4 on what a tick reads: neither keypad nor timers. -/

namespace Sys2Proof.Machine

/-- The state with the parts the host writes between ticks, keypad and timers, at other values. -/
def withInputs (key : Vector Bool 16) (dt st : Byte) (s : State) : State := { s with key := key, dt := dt, st := st }

section Inputs

variable (key : Vector Bool 16) (dt st : Byte)

theorem skipIf_withInputs (c : Bool) (s : State) :
    skipIf c (withInputs key dt st s) = withInputs key dt st (skipIf c s) := by
  cases c <;> rfl

theorem hitCell_withInputs (k : Nat) (s : State) :
    hitCell k (withInputs key dt st s) = withInputs key dt st (hitCell k s) := by
  rw [hitCell_eq, hitCell_eq, apply_ite (withInputs key dt st)]
  rfl

theorem drawPixel_withInputs (x y : Reg) (r : Nat) (sprite : Byte) (s : State) (c : Nat) :
    drawPixel x y r sprite (withInputs key dt st s) c = withInputs key dt st (drawPixel x y r sprite s c) := by
  simp only [drawPixel, hitCell_withInputs, apply_ite (withInputs key dt st)]
  rfl

theorem drawRow_withInputs (x y : Reg) (r : Nat) (sprite : Byte) (s : State) :
    drawRow x y r sprite (withInputs key dt st s) = withInputs key dt st (drawRow x y r sprite s) :=
  List.foldl_hom (withInputs key dt st) (drawPixel_withInputs key dt st x y r sprite)

theorem drawRows_withInputs (x y : Reg) (left r : Nat) (s : State) :
    drawRows x y left r (withInputs key dt st s) = withInputs key dt st (drawRows x y left r s) := by
  induction left generalizing r s with
  | zero => rfl
  | succ left ih =>
    have hread : memRead (s.i.toNat + r) (withInputs key dt st s) = memRead (s.i.toNat + r) s := rfl
    have hi : (withInputs key dt st s).i = s.i := rfl
    simp only [drawRows, hi, hread]
    cases memRead (s.i.toNat + r) s with
    | error f => rfl
    | ok sprite => simp only [drawRow_withInputs, ih]

/-- Every instruction does the same whatever the keypad and the timers hold. -/
theorem exec_withInputs {i : Instr} {s t : State} (h : exec i s = .next t) :
    exec i (withInputs key dt st s) = .next (withInputs key dt st t) := by
  cases i with
  | ret =>
    rcases exec_ret_cases h with ⟨hsp, rfl⟩ | ⟨n, hn, hsp, rfl⟩
    · exact exec_ret_of_empty (s := withInputs key dt st s) hsp
    · exact exec_ret_of_entry (s := withInputs key dt st s) hn hsp
  | call nnn =>
    rcases exec_call_cases h with ⟨hsp, rfl⟩ | ⟨hroom, rfl⟩
    · exact exec_call_of_full nnn (s := withInputs key dt st s) hsp
    · exact exec_call_of_room nnn (s := withInputs key dt st s) hroom
  | seImm | sneImm | seReg | sneReg =>
    cases h
    exact congrArg Host.Outcome.next (skipIf_withInputs key dt st _ s)
  | drw x y n =>
    cases h
    exact congrArg Host.Outcome.next (drawRows_withInputs key dt st x y n.val 0 (writeFlag s false))
  | _ => cases h; rfl

theorem step_withInputs {s t : State} (h : step s = .next t) :
    step (withInputs key dt st s) = .next (withInputs key dt st t) := by
  rcases step_cases s with ⟨hh, e⟩ | ⟨hs, hp, e⟩ | ⟨hs, hp, ⟨_, hd, e⟩ | ⟨i, hd, e⟩⟩ <;> rw [e] at h
  · cases h
    exact step_of_halted (s := withInputs key dt st s) hh
  · cases h
    exact step_fetch_outside (s := withInputs key dt st s) hs hp
  · cases h
    exact step_of_decodeWord_error (s := withInputs key dt st s) hs hp hd
  · exact (step_of_decodeWord (s := withInputs key dt st s) hs hp hd).trans (exec_withInputs key dt st h)

/-- Whether and what a tick reports is said by HALT, PC and memory alone. -/
theorem report_withInputs (s : State) : report (withInputs key dt st s) = report s := by
  ext r
  rw [reportCarriesWordAndAddress, reportCarriesWordAndAddress]
  rfl

end Inputs

/-- Settles O52. -/
theorem ticksDoNotReadKeysOrTimers : Obligations.TicksDoNotReadKeysOrTimers :=
  fun s _ key dt st h => ⟨step_withInputs key dt st h, report_withInputs key dt st s⟩

end Sys2Proof.Machine
end
